-- ==== Sys2Proof/Word.lean ====
section
/-! DEFINITION. The word types of RngCore: register words, bytes, lengths and failure causes. -/

namespace Sys2Proof

/-- A register value, a command word or a response word: 32 bits (spec/00_scope.md section 6, spec/30_encoding.md R90). -/
abbrev Word := BitVec 32

/-- One byte of the buffer (spec/10_state.md R36). -/
abbrev Byte := BitVec 8

/-- A byte count of `LEN_W = 29` bits (spec/00_scope.md R7, spec/10_state.md R21). -/
abbrev Len := BitVec 29

/-- An opaque failure cause of `CAUSE_W = 29` bits (spec/00_scope.md R7, R15). -/
abbrev Cause := BitVec 29

end Sys2Proof
end

