-- ==== Sys2Proof/Config.lean ====
section
/-! DEFINITION. What an instance fixes (the parameter table R7) and the free values: what the environment answers when
no script says it. -/

namespace Sys2Proof

/-- The order of a data word's four bytes in the buffer (spec/00_scope.md R7, spec/20_memory.md R64). -/
inductive ByteOrder where
  | le
  | be
  deriving DecidableEq, Repr, Inhabited

/-- The parameters of one instance (spec/00_scope.md R7). They are fixed for its life; `LEN_W` and `CAUSE_W` are the
widths of `Len` and `Cause`. -/
structure Params where
  /-- `ADDR_W`, the width of `BASE`. -/
  addrW : Nat
  /-- `BASE`, the byte address of the register window. -/
  base : Nat
  /-- `T_POLL`, the poll budget. -/
  tPoll : Nat
  /-- `BYTE_ORDER`. -/
  byteOrder : ByteOrder
  deriving DecidableEq, Repr, Inhabited

/-- What the platform guarantees of the window's place: `BASE` is a multiple of 4 and `BASE + 0x0B` does not exceed the
top of the address space (spec/20_memory.md R61, R67; decision D8). -/
abbrev Params.Placed (p : Params) : Prop := p.base % 4 = 0 ∧ p.base + 0x0B < 2 ^ p.addrW

/-- The constraints of the parameter table: the window is placed and `T_POLL >= 1` (spec/00_scope.md R7, R9). -/
abbrev Params.Ok (p : Params) : Prop := p.Placed ∧ 1 ≤ p.tPoll

/-- The clock facility's answer to `ClkPrepare` (spec/00_scope.md R15). -/
inductive PrepAnswer where
  | ok
  | fail (e : Cause)
  deriving DecidableEq, Repr, Inhabited

/-- The three registers of the window (spec/10_state.md R30). -/
structure Window where
  cr : Word
  sr : Word
  dr : Word
  deriving DecidableEq, Repr, Inhabited

/-- FREE VALUE: what the window's registers hold, as far as the spec says, at the k-th draw of a run
(spec/10_state.md R47, spec/20_memory.md R75). Log entry 4. -/
opaque Config.freeWindow : Nat → Window

/-- FREE VALUE: the clock facility's answer at the k-th draw of a run (spec/10_state.md R47). Log entry 4. -/
opaque Config.freePrep : Nat → PrepAnswer

/-- FREE VALUE: `T_POLL - 1` of the instance that `State.reset` describes (spec/00_scope.md R9). Log entry 3. -/
opaque Config.freeBudget : Nat

/-- FREE VALUE: `ADDR_W - 4` of the instance that `State.reset` describes (spec/00_scope.md R7). Log entry 3. -/
opaque Config.freeAddrWidth : Nat

/-- FREE VALUE: the choice of `BASE` of the instance that `State.reset` describes (spec/00_scope.md R7). Log entry 3. -/
opaque Config.freeBase : Nat

/-- The instance `State.reset` describes: open parameters at free values that meet `Params.Ok`, `BYTE_ORDER` at the
value the parameter table gives it (spec/00_scope.md R7). -/
def Config.params : Params where
  addrW := Config.freeAddrWidth + 4
  base := 4 * (Config.freeBase % (2 ^ (Config.freeAddrWidth + 2) - 2))
  tPoll := Config.freeBudget + 1
  byteOrder := .le

end Sys2Proof
end

