-- ==== Sys2Proof/Syntax.lean ====
section
/-! DEFINITION. The commands of RngCore, one constructor per row of the opcode map (spec/30_encoding.md R92), and their
textual form (R100). -/

namespace Sys2Proof

/-- The three commands (spec/30_encoding.md R91, R92). -/
inductive Instr where
  /-- INIT: no operands (spec/40_init.md R110). -/
  | init
  /-- READ: the buffer length `n` in bytes and the `wait` flag (spec/41_read.md R120). -/
  | read (n : Nat) (wait : Bool)
  /-- CLEANUP: no operands (spec/42_cleanup.md R160). -/
  | cleanup
  deriving DecidableEq, Repr

/-- The line a program writes for a command (spec/30_encoding.md R100). -/
def Instr.text (i : Instr) : String :=
  match i with
  | .init => "INIT"
  | .read n wait => "READ " ++ toString n ++ (if wait then ", wait" else ", nowait")
  | .cleanup => "CLEANUP"

end Sys2Proof
end

