-- ==== Sys2Proof/WellFormed.lean ====
section
/-! DEFINITION. Which terms of `Instr` are commands: the length of READ fits the `LEN_W = 29` bits of its field. -/

namespace Sys2Proof

/-- `0 <= n < 2^29` (spec/41_read.md R120, spec/30_encoding.md R100); INIT and CLEANUP have no operands to check. -/
abbrev Instr.WellFormed (i : Instr) : Prop :=
  match i with
  | .init => True
  | .read n _ => n < 2 ^ 29
  | .cleanup => True

end Sys2Proof
end

