-- ==== Sys2Proof/Decode.lean ====
section
/-! DEFINITION. The command word: `decode`, total on every 32-bit word and rejecting by name (spec/30_encoding.md R90 to
R95), and the encoder written from the same table. -/

namespace Sys2Proof

/-- Why a word selects no row of the opcode map (spec/30_encoding.md R94). -/
inductive Reject where
  /-- `op == 11`. -/
  | reservedOp
  /-- `op == 00` with a bit of 31:2 set. -/
  | initBitsNotZero
  /-- `op == 10` with a bit of 31:2 set. -/
  | cleanupBitsNotZero
  deriving DecidableEq, Repr

/-- One row of the opcode map: a word selects it when `w & mask == pattern` (spec/30_encoding.md R92). -/
structure OpcodeRow where
  mnemonic : String
  mask : Word
  pattern : Word
  deriving DecidableEq, Repr

def initRow : OpcodeRow := ⟨"INIT", 0xFFFFFFFF, 0x00000000⟩
def readRow : OpcodeRow := ⟨"READ", 0x00000003, 0x00000001⟩
def cleanupRow : OpcodeRow := ⟨"CLEANUP", 0xFFFFFFFF, 0x00000002⟩

/-- The opcode map (spec/30_encoding.md R92). -/
def opcodeMap : List OpcodeRow := [initRow, readRow, cleanupRow]

/-- Does the word select the row (spec/30_encoding.md R92)? -/
def OpcodeRow.selects (r : OpcodeRow) (w : Word) : Bool := w &&& r.mask == r.pattern

/-- Field `op`, bits 1:0 of the command word (spec/30_encoding.md R90). -/
def opField (w : Word) : BitVec 2 := w.extractLsb' 0 2

/-- Field `wait`, bit 2 (spec/30_encoding.md R90, R91). -/
def waitField (w : Word) : Bool := w.getLsbD 2

/-- Field `len`, bits 31:3, taken as an unsigned integer: the length in bytes, not scaled (spec/30_encoding.md R91). -/
def lenField (w : Word) : Nat := (w.extractLsb' 3 29).toNat

/-- The name of the rejection of a word that selects no row (spec/30_encoding.md R94). -/
def rejectReason (w : Word) : Reject :=
  if opField w = 0b11#2 then .reservedOp
  else if opField w = 0b00#2 then .initBitsNotZero
  else .cleanupBitsNotZero

/-- `decode`: every 32-bit word is INIT, READ, CLEANUP or invalid (spec/30_encoding.md R92, R94). -/
def decode (w : Word) : Except Reject Instr :=
  if initRow.selects w then .ok .init
  else if readRow.selects w then .ok (.read (lenField w) (waitField w))
  else if cleanupRow.selects w then .ok .cleanup
  else .error (rejectReason w)

/-- The word of a well-formed command, `(n << 3) | (wait << 2) | 1` for READ (spec/41_read.md R120, spec/30_encoding.md
R90, R92). -/
def encode (i : Instr) : Word :=
  match i with
  | .init => 0x00000000
  | .read n wait => ((BitVec.ofNat 29 n).setWidth 32 <<< 3) ||| ((BitVec.ofBool wait).setWidth 32 <<< 2) ||| 0b01#32
  | .cleanup => 0x00000002

/-- The command this decoder reads from an instruction whose bits are `w`, numbered as the opcode table numbers them; a
command is one 32-bit word, so bits from `nbits` up are zero. -/
def decodeTableWord (nbits w : Nat) : Option Instr :=
  match decode (BitVec.ofNat 32 (w % 2 ^ nbits)) with
  | .ok i => some i
  | .error _ => none

end Sys2Proof
end

