-- ==== Sys2Proof/Machine/State.lean ====
section
/-! DEFINITION. The state of RngCore as plain data: the block, the host's side, the environment, the trace; the reasons
a step can stop; and the state at construction. -/

namespace Sys2Proof.Machine

/-- The FSM state register `st` (spec/10_state.md R20). -/
inductive Fsm where
  | idle
  | iPrep
  | iFail
  | iRdsr
  | iWrsr
  | iRet
  | rClken
  | rRdcr
  | rWrcr
  | rRdsr
  | rPoll
  | rHwerr
  | rRddr
  | rStore
  | rRestore
  | rClkdis
  | rRet
  | cUnprep
  | cRet
  deriving DecidableEq, Repr

/-- The eight working registers (spec/10_state.md R21). -/
structure Regs where
  /-- `cr_saved`: the pre-call value of CR. -/
  crSaved : Word
  /-- `sr`: the most recent status-register read. -/
  sr : Word
  /-- `word`: the most recent data-register read. -/
  word : Word
  /-- `tmo`: poll re-reads still allowed. -/
  tmo : Nat
  /-- `rem`: bytes of buffer not yet filled. -/
  rem : Len
  /-- `cnt`: bytes produced so far, and the output cursor. -/
  cnt : Len
  /-- `wait`: the latched operand of READ. -/
  wait : Bool
  /-- `cause`: the failure value of `ClkPrepare`. -/
  cause : Cause
  deriving DecidableEq, Repr

/-- The status of a response (spec/30_encoding.md R97). -/
inductive Status where
  | ok
  | clockUnavailable
  | noDataTimeout
  deriving DecidableEq, Repr

/-- What `Return` delivers (spec/10_state.md R27). -/
structure Response where
  status : Status
  payload : BitVec 29
  hwerr : Bool
  deriving DecidableEq, Repr

/-- Bytes by index: a list of cells with strictly rising indices. An index that is not listed has no value here: that
byte is as the host left it. -/
abbrev Memory := List Host.Cell

/-- The canonical form: indices strictly rising. -/
abbrev Memory.wf (m : Memory) : Prop := m.Pairwise (fun a b => a.1 < b.1)

/-- The host's buffer: `len` bytes indexed from 0 (spec/10_state.md R36). Length 0 stands for no buffer. -/
structure Buffer where
  len : Nat
  bytes : Memory
  deriving DecidableEq, Repr

/-- A command the host presents: the word, and for READ the buffer the host owns for the call, as far as its bytes are
known (spec/30_encoding.md R90, spec/10_state.md R36). -/
structure Presented where
  word : Word
  buffer : Memory
  deriving DecidableEq, Repr

/-- The events (spec/00_scope.md R11). -/
inductive Event where
  | accept (i : Instr)
  | clkPrepare (a : PrepAnswer)
  | clkUnprepare
  | clkEnable
  | clkDisable
  | regRead (off : Nat) (v : Word)
  | regWrite (off : Nat) (v : Word)
  | bufWrite (i : Nat) (b0 b1 b2 b3 : Byte)
  | hwError (v : Word)
  | ret (r : Response)
  deriving DecidableEq, Repr

/-- What the reference peripheral does on its own (spec/10_state.md R41, R43). -/
inductive PeriphAct where
  /-- It completes a word. -/
  | complete (w : Word)
  /-- It latches clock-error. -/
  | latchClock
  /-- It latches seed-error. -/
  | latchSeed
  deriving DecidableEq, Repr

/-- A scripted move of the reference peripheral: `act`, once `delay` window transactions have gone by since the move
before it (spec/10_state.md R47; log entry 5). -/
structure Move where
  delay : Nat
  act : PeriphAct
  deriving DecidableEq, Repr

/-- How the window answers (spec/10_state.md R47). -/
inductive EnvKind where
  /-- The trusted model: every read value is a draw. -/
  | drawn
  /-- The reference peripheral, untrusted, for simulation. -/
  | reference
  deriving DecidableEq, Repr

/-- The environment: the peripheral and the clock facility (spec/10_state.md R40 to R47). -/
structure Env where
  kind : EnvKind
  /-- CR, SR and DR (spec/10_state.md R30). -/
  win : Window
  /-- The clock is prepared (spec/10_state.md R46). -/
  clkPrepared : Bool
  /-- The clock is enabled (spec/10_state.md R46). -/
  clkEnabled : Bool
  /-- Script: answers to `ClkPrepare` (spec/30_encoding.md R100). -/
  prepAnswers : List PrepAnswer
  /-- Script: values returned by reads of CR. -/
  crAnswers : List Word
  /-- Script: values returned by reads of SR. -/
  srAnswers : List Word
  /-- Script: values returned by reads of DR. -/
  drAnswers : List Word
  /-- Script: the reference peripheral's own moves. -/
  moves : List Move
  /-- The model's own counter: which free value comes next (log entry 4). -/
  draws : Nat
  deriving DecidableEq, Repr

/-- The whole machine. -/
structure State where
  /-- The instance's parameters (spec/00_scope.md R7). -/
  cfg : Params
  /-- The FSM state register, written `pc` in the spec's pseudocode (spec/10_state.md R20). -/
  st : Fsm
  /-- The working registers, written `x[r]` in the spec (spec/10_state.md R21). -/
  x : Regs
  /-- Flag `hwerr` (spec/10_state.md R22). -/
  hwerr : Bool
  /-- Flag `prepared` (spec/10_state.md R22). -/
  prepared : Bool
  /-- The response output; none before the first `Return` (spec/10_state.md R27, R50). -/
  response : Option Response
  /-- The buffer of the current or last READ (spec/10_state.md R36). -/
  buf : Buffer
  /-- The environment (spec/10_state.md R40 to R47). -/
  env : Env
  /-- The commands the host has still to present, the next one first (spec/30_encoding.md R93, R100). -/
  pending : List Presented
  /-- The events so far, the oldest first (spec/00_scope.md R11, R12). -/
  trace : List Event
  deriving DecidableEq, Repr

/-- Why the machine stops with a fault. -/
inductive Fault where
  /-- Raised by `memRead` and `memWrite` for an address that is no register of the window the access may reach
  (spec/00_scope.md R13, R14). SAFE: the block never issues one. -/
  | noSuchRegister (addr : Nat)
  /-- Raised by `bufWrite` for bytes that the buffer does not have (spec/00_scope.md R16, spec/10_state.md R36). SAFE: no
  state that meets the invariant of Safety.lean reaches it. -/
  | bufferOverrun (i : Nat)
  deriving DecidableEq, Repr

/-- Why the model refuses: the step is not enabled and no claim holds of the run (spec/30_encoding.md R95). -/
inductive Refusal where
  /-- An instruction that has no meaning yet; raised by `exec` only. SAFE. -/
  | notModelled (mnemonic : String)
  /-- Raised by `step` on a word that selects no row (spec/30_encoding.md R94, R95). SAFE. -/
  | invalidCommand (r : Reject)
  /-- Raised by INIT while `prepared == 1` (spec/30_encoding.md R93, R95). SAFE. -/
  | initWhilePrepared
  /-- Raised by READ while `prepared == 0` (spec/30_encoding.md R93, R95). SAFE. -/
  | readWhileUnprepared
  /-- Raised by CLEANUP while `prepared == 0` (spec/30_encoding.md R93, R95; spec/42_cleanup.md R164). SAFE. -/
  | cleanupWhileUnprepared
  /-- Raised by a meaning asked to run in an FSM state of another command
  (spec/70_reset_and_hazards.md R210; spec/93_implementation_defined.md U4). SAFE: `step` never asks. -/
  | commandWhileBusy
  /-- Raised by `memRead` and `memWrite` when `BASE` is not a multiple of 4 or the window passes the top of the address
  space (spec/92_eei_decisions.md D8: an unaligned window is refused). SAFE. -/
  | windowMisplaced
  deriving DecidableEq, Repr

/-- The registers before any call: the spec gives none of them a value (spec/10_state.md R50). DESIGN CHOICE, UNSAFE: zero
(log entry 1). -/
def Regs.reset : Regs where
  crSaved := 0
  sr := 0
  word := 0
  tmo := 0
  rem := 0
  cnt := 0
  wait := false
  cause := 0

/-- The environment at construction: clock neither prepared nor enabled by this block (spec/10_state.md R50); every read
a draw (R47); the window's registers, to which the spec gives no value, at zero (DESIGN CHOICE, UNSAFE: log entry 2). -/
def Env.reset : Env where
  kind := .drawn
  win := ⟨0, 0, 0⟩
  clkPrepared := false
  clkEnabled := false
  prepAnswers := []
  crAnswers := []
  srAnswers := []
  drAnswers := []
  moves := []
  draws := 0

/-- The state at construction, which is the reset of this block (spec/10_state.md R50, spec/70_reset_and_hazards.md
R200). -/
def State.reset : State where
  cfg := Config.params
  st := .idle
  x := Regs.reset
  hwerr := false
  prepared := false
  response := none
  buf := ⟨0, []⟩
  env := Env.reset
  pending := []
  trace := []

end Sys2Proof.Machine
end

