-- ==== Sys2Proof/Machine/Operands.lean ====
section
/-! DEFINITION. What an access names and how data is laid out: the window's registers and addresses, the bytes of a data
word, the buffer's cells, the response word, the FSM codes. -/

namespace Sys2Proof.Machine

/-- `OFF_CR` (spec/00_scope.md R7, spec/10_state.md R30). -/
def offCr : Nat := 0x00

/-- `OFF_SR` (spec/00_scope.md R7, spec/10_state.md R30). -/
def offSr : Nat := 0x04

/-- `OFF_DR` (spec/00_scope.md R7, spec/10_state.md R30). -/
def offDr : Nat := 0x08

/-- The three registers of the window (spec/10_state.md R30). -/
inductive WinReg where
  | cr
  | sr
  | dr
  deriving DecidableEq, Repr

/-- The offset of a register from `BASE` (spec/10_state.md R30). -/
def WinReg.offset (r : WinReg) : Nat :=
  match r with
  | .cr => offCr
  | .sr => offSr
  | .dr => offDr

/-- Effective address: base plus constant offset, no wrap-around (spec/20_memory.md R61). -/
def effAddr (p : Params) (off : Nat) : Nat := p.base + off

/-- The register an address names, if any (spec/00_scope.md R13, spec/20_memory.md R62). -/
def regAt (p : Params) (addr : Nat) : Option WinReg :=
  if addr = effAddr p offCr then some .cr
  else if addr = effAddr p offSr then some .sr
  else if addr = effAddr p offDr then some .dr
  else none

/-- The value of one register of the window. -/
def winGet (w : Window) (r : WinReg) : Word :=
  match r with
  | .cr => w.cr
  | .sr => w.sr
  | .dr => w.dr

/-- The window with one register replaced. -/
def winSet (w : Window) (r : WinReg) (v : Word) : Window :=
  match r with
  | .cr => { w with cr := v }
  | .sr => { w with sr := v }
  | .dr => { w with dr := v }

/-- The byte of a data word that goes to buffer index `i + k`, `k < 4` (spec/20_memory.md R64). -/
def byteAt (o : ByteOrder) (v : Word) (k : Nat) : Byte :=
  match o with
  | .le => v.extractLsb' (8 * k) 8
  | .be => v.extractLsb' (8 * (3 - k)) 8

/-- The value of the byte at an index; no value where nothing is listed: that byte is as the host left it
(spec/10_state.md R36). -/
def readByte (m : Memory) (a : Nat) : Option Byte :=
  match m with
  | [] => none
  | c :: t => if c.1 = a then some c.2 else readByte t a

/-- Writes one byte and keeps the cells in rising order. -/
def writeByte (m : Memory) (a : Nat) (b : Byte) : Memory :=
  match m with
  | [] => [(a, b)]
  | c :: t =>
    if a < c.1 then (a, b) :: c :: t
    else if a = c.1 then (a, b) :: t
    else c :: writeByte t a b

/-- Writes the four bytes of a word at `i` to `i + 3` (spec/00_scope.md R16, spec/20_memory.md R64). -/
def writeWord (o : ByteOrder) (m : Memory) (i : Nat) (v : Word) : Memory :=
  writeByte (writeByte (writeByte (writeByte m i (byteAt o v 0)) (i + 1) (byteAt o v 1)) (i + 2) (byteAt o v 2))
    (i + 3) (byteAt o v 3)

/-- The buffer the host brings to a READ of `n` bytes: indices 0 to `n - 1` (spec/10_state.md R36). -/
def hostBuffer (n : Nat) (m : Memory) : Buffer := ⟨n, m.filter (fun c => c.1 < n)⟩

/-- The code of a status (spec/30_encoding.md R97). -/
def statusCode (t : Status) : BitVec 2 :=
  match t with
  | .ok => 0b00
  | .clockUnavailable => 0b01
  | .noDataTimeout => 0b10

/-- The response word: payload in bits 31:3, `hwerr` in bit 2, status in bits 1:0 (spec/30_encoding.md R96). -/
def responseWord (r : Response) : Word :=
  (r.payload.setWidth 32 <<< 3) ||| ((BitVec.ofBool r.hwerr).setWidth 32 <<< 2) ||| (statusCode r.status).setWidth 32

/-- The 5-bit code of an FSM state; informative, read by no rule (spec/30_encoding.md R99). -/
def fsmCode (t : Fsm) : BitVec 5 :=
  match t with
  | .idle => 0
  | .iPrep => 1
  | .iFail => 2
  | .iRdsr => 3
  | .iWrsr => 4
  | .iRet => 5
  | .rClken => 6
  | .rRdcr => 7
  | .rWrcr => 8
  | .rRdsr => 9
  | .rPoll => 10
  | .rHwerr => 11
  | .rRddr => 12
  | .rStore => 13
  | .rRestore => 14
  | .rClkdis => 15
  | .rRet => 16
  | .cUnprep => 17
  | .cRet => 18

end Sys2Proof.Machine
end

