-- ==== Sys2Proof/Machine/Flags.lean ====
section
/-! DEFINITION. The bits the block sets, clears and tests: the masks of CR and SR, the hardware-error detector, the
evaluation of a status word, the response of READ, the power conditions. -/

namespace Sys2Proof.Machine

/-- `EN`: control register bit 2 (spec/00_scope.md section 6, spec/10_state.md R31). -/
def maskEn : Word := 0x00000004

/-- `DRDY`: status register bit 0 (spec/10_state.md R32). -/
def maskDrdy : Word := 0x00000001

/-- `CEIS`: status register bit 5, clock-error (spec/10_state.md R32). -/
def maskCeis : Word := 0x00000020

/-- `SEIS`: status register bit 6, seed-error (spec/10_state.md R32). -/
def maskSeis : Word := 0x00000040

/-- `ERR = CEIS | SEIS` (spec/10_state.md R32). -/
def maskErr : Word := 0x00000060

/-- The hardware-error detector (spec/60_exceptions.md R174). -/
def errDetect (v : Word) : Bool := v &&& maskErr != 0

/-- The word READ writes to CR to enable the generator (spec/41_read.md R124). -/
def withEnable (c : Word) : Word := c ||| maskEn

/-- The word INIT writes to SR: the two error bits cleared, every other bit as read (spec/40_init.md R114). -/
def clearErrors (v : Word) : Word := v &&& 0xFFFFFF9F

/-- `next(v)`: error bits first, then zero, then data (spec/41_read.md R129). -/
def nextOf (v : Word) : Fsm :=
  if errDetect v then .rHwerr
  else if v = 0 then .rRestore
  else .rRddr

/-- Where the first status read of a pass goes: poll on zero with `wait`, else `next(v)` (spec/41_read.md R126). -/
def afterFirstRead (wait : Bool) (v : Word) : Fsm :=
  if v = 0 ∧ wait = true then .rPoll else nextOf v

/-- Where a re-read goes; `tmo` is the new count (spec/41_read.md R128). -/
def afterReRead (tmo : Nat) (v : Word) : Fsm :=
  if v = 0 ∧ tmo ≠ 0 then .rPoll else nextOf v

/-- Another pass starts only with at least 4 bytes of buffer left (spec/41_read.md R125, R133). -/
def afterStore (rem : Len) : Fsm := if 4 ≤ rem then .rRdsr else .rRestore

/-- The first state of a READ call: fewer than 4 bytes touch no hardware (spec/41_read.md R121). -/
def readEntry (n : Nat) : Fsm := if 4 ≤ n then .rClken else .rRet

/-- The status of READ: `NoDataTimeout` exactly when nothing was produced and `wait` was set (spec/41_read.md R136). -/
def readTimedOut (cnt : Len) (wait : Bool) : Bool := cnt == 0 && wait

/-- The command an FSM state belongs to (the column "command" of spec/10_state.md R20); none for `S_IDLE`. -/
inductive Family where
  | init
  | read
  | cleanup
  deriving DecidableEq, Repr

/-- The command whose step an FSM state performs (spec/10_state.md R20). -/
def family (t : Fsm) : Option Family :=
  match t with
  | .idle => none
  | .iPrep | .iFail | .iRdsr | .iWrsr | .iRet => some .init
  | .rClken | .rRdcr | .rWrcr | .rRdsr | .rPoll | .rHwerr | .rRddr | .rStore | .rRestore | .rClkdis | .rRet =>
    some .read
  | .cUnprep | .cRet => some .cleanup

/-- The block's three power conditions (spec/60_exceptions.md R196). -/
inductive Power where
  | unprepared
  | gatedOff
  | enabled
  deriving DecidableEq, Repr

/-- The power condition, from the two bits of the clock facility (spec/60_exceptions.md R196, spec/10_state.md R46). -/
def power (e : Env) : Power :=
  if e.clkEnabled then .enabled else if e.clkPrepared then .gatedOff else .unprepared

end Sys2Proof.Machine
end

