-- ==== Sys2Proof/Machine/Ops.lean ====
section
/-! DEFINITION. The primitives of spec/00_scope.md section 7 and the shared steps over them: each primitive appends
exactly one event (R12). The environment's answers are drawn here (spec/10_state.md R47). -/

namespace Sys2Proof.Machine

/-- Goes on with the value of a finished operation; a stop stays a stop. -/
def andThen {α β : Type} (o : Host.Outcome α Fault Refusal) (k : α → Host.Outcome β Fault Refusal) :
    Host.Outcome β Fault Refusal :=
  match o with
  | .next a => k a
  | .fault r => .fault r
  | .refused r => .refused r

/-- Appends one event to the trace (spec/00_scope.md R11, R12). -/
def emit (e : Event) (s : State) : State := { s with trace := s.trace ++ [e] }

/-- `pc <- S` (spec/00_scope.md section 6). -/
def goto (t : Fsm) (s : State) : State := { s with st := t }

/-! ### The environment's answers -/

/-- The script's remaining answers for a register (spec/30_encoding.md R100). -/
def answersFor (e : Env) (r : WinReg) : List Word :=
  match r with
  | .cr => e.crAnswers
  | .sr => e.srAnswers
  | .dr => e.drAnswers

/-- The environment once the next answer for a register is used up. -/
def dropAnswer (e : Env) (r : WinReg) : Env :=
  match r with
  | .cr => { e with crAnswers := e.crAnswers.tail }
  | .sr => { e with srAnswers := e.srAnswers.tail }
  | .dr => { e with drAnswers := e.drAnswers.tail }

/-- A draw for a register: the script's next answer, else a free value (spec/10_state.md R47; log entry 4). -/
def drawWord (e : Env) (r : WinReg) : Word :=
  (answersFor e r).headD (winGet (Config.freeWindow e.draws) r)

/-- The environment after a draw for a register. -/
def afterDraw (e : Env) (r : WinReg) : Env := { dropAnswer e r with draws := e.draws + 1 }

/-- One move of the reference peripheral on its registers; none if it must wait. A word is completed only while the
generator is active (spec/10_state.md R40, R47) and the last word was consumed (R42; log entry 5); an error bit is
latched at any time (R43). -/
def periphAct (a : PeriphAct) (w : Window) : Option Window :=
  match a with
  | .complete v =>
    if w.cr &&& maskEn ≠ 0 ∧ w.sr &&& maskDrdy = 0 then some { w with dr := v, sr := w.sr ||| maskDrdy } else none
  | .latchClock => some { w with sr := w.sr ||| maskCeis }
  | .latchSeed => some { w with sr := w.sr ||| maskSeis }

/-- The moves that are due before a transaction, in the script's order: what is left of the script, and the registers
(spec/20_memory.md R75; log entry 5). -/
def runMoves (ms : List Move) (w : Window) : List Move × Window :=
  match ms with
  | [] => ([], w)
  | m :: t =>
    if m.delay = 0 then
      match periphAct m.act w with
      | some w' => runMoves t w'
      | none => (m :: t, w)
    else ({ m with delay := m.delay - 1 } :: t, w)

/-- The reference peripheral's own changes before the block's next transaction. -/
def periphTurn (e : Env) : Env :=
  { e with moves := (runMoves e.moves e.win).1, win := (runMoves e.moves e.win).2 }

/-- The reference peripheral answers a read: CR and SR as they stand; DR gives the completed word and clears data-ready
(spec/10_state.md R42, R47), and any value while data-ready is clear (R33; spec/93_implementation_defined.md U3). -/
def refRead (e : Env) (r : WinReg) : Word × Env :=
  match r with
  | .cr => (e.win.cr, e)
  | .sr => (e.win.sr, e)
  | .dr =>
    if e.win.sr &&& maskDrdy ≠ 0 then (e.win.dr, { e with win := { e.win with sr := e.win.sr &&& ~~~maskDrdy } })
    else (drawWord e .dr, afterDraw e .dr)

/-- The trusted environment answers a read: any word. The register read held that word; of the other two nothing is
known (spec/10_state.md R47, spec/20_memory.md R75). -/
def drawnRead (e : Env) (r : WinReg) : Word × Env :=
  (drawWord e r, { afterDraw e r with win := winSet (Config.freeWindow e.draws) r (drawWord e r) })

/-- The environment's answer to a read of a register. -/
def envRead (e : Env) (r : WinReg) : Word × Env :=
  match e.kind with
  | .drawn => drawnRead e r
  | .reference => refRead (periphTurn e) r

/-- What a write of `v` leaves in SR: bit 0 and unrecognised bits unchanged, an error bit kept only where both the old
bit and the written bit are 1 (spec/10_state.md R44). -/
def srAfterWrite (old v : Word) : Word := old &&& (v ||| ~~~maskErr)

/-- The reference peripheral takes a write: CR stores the word (spec/10_state.md R45), SR acts as R44 says; the block
writes no DR. Its unrecognised bits stay zero (R47): SR keeps its own, and the block writes to CR only bits it read there
and the enable bit (R35; the invariant of Safety.lean; log entry 19).
DESIGN CHOICE: a write of CR leaves SR and DR as they stand, so a completed word survives the clearing of CR bit 2 and
may be taken by a later READ; the spec leaves this open (spec/70_reset_and_hazards.md R214, spec/91_not_in_source.md N10;
log entry 22). Unsafe for claims about the reference peripheral. -/
def refWrite (e : Env) (r : WinReg) (v : Word) : Env :=
  match r with
  | .cr => { e with win := { e.win with cr := v } }
  | .sr => { e with win := { e.win with sr := srAfterWrite e.win.sr v } }
  | .dr => e

/-- The environment takes a write. In the trusted model nothing is known of the registers after it
(spec/93_implementation_defined.md U12, U16). -/
def envWrite (e : Env) (r : WinReg) (v : Word) : Env :=
  match e.kind with
  | .drawn => { e with win := Config.freeWindow e.draws, draws := e.draws + 1 }
  | .reference => refWrite (periphTurn e) r v

/-- The clock facility's answer to `prepare`: the script's next one, else a free value (spec/10_state.md R47). -/
def drawPrep (e : Env) : PrepAnswer := e.prepAnswers.headD (Config.freePrep e.draws)

/-! ### The primitives -/

/-- `MemRead(addr, 4)` (spec/00_scope.md R13). -/
def memRead (addr : Nat) (s : State) : Host.Outcome (Word × State) Fault Refusal :=
  if s.cfg.Placed then
    match regAt s.cfg addr with
    | some r => .next ((envRead s.env r).1,
        emit (.regRead (addr - s.cfg.base) (envRead s.env r).1) { s with env := (envRead s.env r).2 })
    | none => .fault (.noSuchRegister addr)
  else .refused .windowMisplaced

/-- `MemWrite(addr, 4, v)`: CR or SR and nothing else (spec/00_scope.md R14). -/
def memWrite (addr : Nat) (v : Word) (s : State) : Host.Outcome State Fault Refusal :=
  if s.cfg.Placed then
    match regAt s.cfg addr with
    | some .cr => .next (emit (.regWrite (addr - s.cfg.base) v) { s with env := envWrite s.env .cr v })
    | some .sr => .next (emit (.regWrite (addr - s.cfg.base) v) { s with env := envWrite s.env .sr v })
    | some .dr => .fault (.noSuchRegister addr)
    | none => .fault (.noSuchRegister addr)
  else .refused .windowMisplaced

/-- `ClkPrepare()` (spec/00_scope.md R15, spec/10_state.md R46). -/
def clkPrepare (s : State) : PrepAnswer × State :=
  (drawPrep s.env, emit (.clkPrepare (drawPrep s.env))
    { s with env := { s.env with
      prepAnswers := s.env.prepAnswers.tail
      draws := s.env.draws + 1
      clkPrepared := if drawPrep s.env = .ok then true else s.env.clkPrepared } })

/-- `ClkUnprepare()`: cannot fail (spec/00_scope.md R15). -/
def clkUnprepare (s : State) : State :=
  emit .clkUnprepare { s with env := { s.env with clkPrepared := false } }

/-- `ClkEnable()`: cannot fail (spec/00_scope.md R15). -/
def clkEnable (s : State) : State :=
  emit .clkEnable { s with env := { s.env with clkEnabled := true } }

/-- `ClkDisable()`: cannot fail (spec/00_scope.md R15). -/
def clkDisable (s : State) : State :=
  emit .clkDisable { s with env := { s.env with clkEnabled := false } }

/-- `BufWrite(i, 4, v)`: the four bytes at `i` to `i + 3` of the buffer (spec/00_scope.md R16, spec/20_memory.md R64). -/
def bufWrite (i : Nat) (v : Word) (s : State) : Host.Outcome State Fault Refusal :=
  if i + 4 ≤ s.buf.len then
    .next (emit (.bufWrite i (byteAt s.cfg.byteOrder v 0) (byteAt s.cfg.byteOrder v 1) (byteAt s.cfg.byteOrder v 2)
        (byteAt s.cfg.byteOrder v 3))
      { s with buf := { s.buf with bytes := writeWord s.cfg.byteOrder s.buf.bytes i v } })
  else .fault (.bufferOverrun i)

/-- `Return(status, payload, hwerr)`: delivers the response; the next state is `S_IDLE` (spec/00_scope.md R18). -/
def ret (r : Response) (s : State) : State :=
  emit (.ret r) { s with response := some r, st := .idle }

/-! ### Error outcomes -/

/-- The three error outcomes (spec/60_exceptions.md R170). -/
inductive ErrorOutcome where
  | clockUnavailable (e : Cause)
  | noDataTimeout
  | hardwareErrorObserved (v : Word)
  deriving DecidableEq, Repr

/-- `raise E(info)` with what it does to the command (spec/00_scope.md R17, spec/60_exceptions.md R170, R176): the two
fatal outcomes become the status of the `Return` event, in `S_I_FAIL` (spec/40_init.md R112) and `S_R_RET`
(spec/41_read.md R136); the non-fatal one is the event `HwError(v)` and the flag `hwerr` (spec/41_read.md R131). -/
def raiseOutcome (o : ErrorOutcome) (s : State) : State :=
  match o with
  | .clockUnavailable e => ret ⟨.clockUnavailable, e, false⟩ s
  | .noDataTimeout => ret ⟨.noDataTimeout, 0, s.hwerr⟩ s
  | .hardwareErrorObserved v => emit (.hwError v) { s with hwerr := true }

/-! ### Accepting a command -/

/-- The part of `Accept` every command shares: the event, `hwerr` cleared, the command taken from the host
(spec/30_encoding.md R93). -/
def accept (i : Instr) (s : State) : State :=
  emit (.accept i) { s with hwerr := false, pending := s.pending.tail }

/-- The buffer the host brings with the command it presents, as far as its bytes are known. -/
def presentedBytes (s : State) : Memory :=
  match s.pending with
  | [] => []
  | p :: _ => p.buffer

end Sys2Proof.Machine
end

