-- ==== Sys2Proof/Machine/Cleanup.lean ====
section
/-! DEFINITION. The CLEANUP command: its steps, one definition per FSM state, and its meaning (spec/42_cleanup.md). -/

namespace Sys2Proof.Machine

/-- State `S_IDLE`, CLEANUP presented: in contract when `prepared == 1` (spec/30_encoding.md R93, spec/42_cleanup.md
R164). -/
def stepAcceptCleanup (s : State) : Host.Outcome State Fault Refusal :=
  if s.prepared then .next (goto .cUnprep (accept .cleanup s)) else .refused .cleanupWhileUnprepared

/-- State `S_C_UNPREP` (spec/42_cleanup.md R161). -/
def stepCUnprep (s : State) : Host.Outcome State Fault Refusal :=
  .next (goto .cRet { clkUnprepare s with prepared := false })

/-- State `S_C_RET` (spec/42_cleanup.md R162). -/
def stepCRet (s : State) : Host.Outcome State Fault Refusal :=
  .next (ret ⟨.ok, 0, false⟩ s)

/-- CLEANUP: the step it takes in the FSM state `s.st` (spec/42_cleanup.md R160). -/
def execCleanup (s : State) : Host.Outcome State Fault Refusal :=
  match s.st with
  | .idle => stepAcceptCleanup s
  | .cUnprep => stepCUnprep s
  | .cRet => stepCRet s
  | .iPrep | .iFail | .iRdsr | .iWrsr | .iRet
  | .rClken | .rRdcr | .rWrcr | .rRdsr | .rPoll | .rHwerr | .rRddr | .rStore | .rRestore | .rClkdis | .rRet =>
    .refused .commandWhileBusy

end Sys2Proof.Machine
end

