-- ==== Sys2Proof/Machine/Init.lean ====
section
/-! DEFINITION. The INIT command: its steps, one definition per FSM state, and its meaning (spec/40_init.md). -/

namespace Sys2Proof.Machine

/-- State `S_IDLE`, INIT presented: in contract when `prepared == 0` (spec/30_encoding.md R93, R95). -/
def stepAcceptInit (s : State) : Host.Outcome State Fault Refusal :=
  if s.prepared then .refused .initWhilePrepared else .next (goto .iPrep (accept .init s))

/-- State `S_I_PREP` (spec/40_init.md R111). -/
def stepIPrep (s : State) : Host.Outcome State Fault Refusal :=
  match (clkPrepare s).1 with
  | .ok => .next (goto .iRdsr (clkPrepare s).2)
  | .fail e => .next (goto .iFail { (clkPrepare s).2 with x.cause := e })

/-- State `S_I_FAIL` (spec/40_init.md R112). -/
def stepIFail (s : State) : Host.Outcome State Fault Refusal :=
  .next (raiseOutcome (.clockUnavailable s.x.cause) s)

/-- State `S_I_RDSR` (spec/40_init.md R113). -/
def stepIRdsr (s : State) : Host.Outcome State Fault Refusal :=
  andThen (memRead (effAddr s.cfg offSr) s) fun p => .next (goto .iWrsr { p.2 with x.sr := p.1 })

/-- State `S_I_WRSR` (spec/40_init.md R114). -/
def stepIWrsr (s : State) : Host.Outcome State Fault Refusal :=
  andThen (memWrite (effAddr s.cfg offSr) (clearErrors s.x.sr) s) fun t => .next (goto .iRet { t with prepared := true })

/-- State `S_I_RET` (spec/40_init.md R115). -/
def stepIRet (s : State) : Host.Outcome State Fault Refusal :=
  .next (ret ⟨.ok, 0, false⟩ s)

/-- INIT: the step it takes in the FSM state `s.st` (spec/40_init.md R110). -/
def execInit (s : State) : Host.Outcome State Fault Refusal :=
  match s.st with
  | .idle => stepAcceptInit s
  | .iPrep => stepIPrep s
  | .iFail => stepIFail s
  | .iRdsr => stepIRdsr s
  | .iWrsr => stepIWrsr s
  | .iRet => stepIRet s
  | .rClken | .rRdcr | .rWrcr | .rRdsr | .rPoll | .rHwerr | .rRddr | .rStore | .rRestore | .rClkdis | .rRet
  | .cUnprep | .cRet => .refused .commandWhileBusy

end Sys2Proof.Machine
end

