-- ==== Sys2Proof/Machine/Read.lean ====
section
/-! DEFINITION. The READ command: its steps, one definition per FSM state, and its meaning (spec/41_read.md; the
transition table is R138). -/

namespace Sys2Proof.Machine

/-- The registers READ's `Accept` loads (spec/41_read.md R121). -/
def latchOperands (n : Nat) (wait : Bool) (s : State) : State :=
  { s with x.wait := wait, x.rem := BitVec.ofNat 29 n, x.cnt := 0 }

/-- State `S_IDLE`, READ presented: in contract when `prepared == 1` (spec/30_encoding.md R93, spec/41_read.md R121). -/
def stepAcceptRead (n : Nat) (wait : Bool) (s : State) : Host.Outcome State Fault Refusal :=
  if s.prepared then
    .next (goto (readEntry n)
      (latchOperands n wait { accept (.read n wait) s with buf := hostBuffer n (presentedBytes s) }))
  else .refused .readWhileUnprepared

/-- State `S_R_CLKEN` (spec/41_read.md R122). -/
def stepRClken (s : State) : Host.Outcome State Fault Refusal :=
  .next (goto .rRdcr (clkEnable s))

/-- State `S_R_RDCR` (spec/41_read.md R123). -/
def stepRRdcr (s : State) : Host.Outcome State Fault Refusal :=
  andThen (memRead (effAddr s.cfg offCr) s) fun p => .next (goto .rWrcr { p.2 with x.crSaved := p.1 })

/-- State `S_R_WRCR` (spec/41_read.md R124). -/
def stepRWrcr (s : State) : Host.Outcome State Fault Refusal :=
  andThen (memWrite (effAddr s.cfg offCr) (withEnable s.x.crSaved) s) fun t => .next (goto .rRdsr t)

/-- State `S_R_RDSR`: the first status read of a pass; the poll phase starts with the whole budget (spec/41_read.md
R126, R127). -/
def stepRRdsr (s : State) : Host.Outcome State Fault Refusal :=
  andThen (memRead (effAddr s.cfg offSr) s) fun p =>
    .next (goto (afterFirstRead s.x.wait p.1)
      { p.2 with x.sr := p.1, x.tmo := if p.1 = 0 ∧ s.x.wait = true then s.cfg.tPoll else s.x.tmo })

/-- State `S_R_POLL`: one re-read of the poll phase (spec/41_read.md R128). -/
def stepRPoll (s : State) : Host.Outcome State Fault Refusal :=
  andThen (memRead (effAddr s.cfg offSr) s) fun p =>
    .next (goto (afterReRead (s.x.tmo - 1) p.1) { p.2 with x.sr := p.1, x.tmo := s.x.tmo - 1 })

/-- State `S_R_HWERR` (spec/41_read.md R131). -/
def stepRHwerr (s : State) : Host.Outcome State Fault Refusal :=
  .next (goto .rRestore (raiseOutcome (.hardwareErrorObserved s.x.sr) s))

/-- State `S_R_RDDR` (spec/41_read.md R132). -/
def stepRRddr (s : State) : Host.Outcome State Fault Refusal :=
  andThen (memRead (effAddr s.cfg offDr) s) fun p => .next (goto .rStore { p.2 with x.word := p.1 })

/-- State `S_R_STORE` (spec/41_read.md R133). -/
def stepRStore (s : State) : Host.Outcome State Fault Refusal :=
  andThen (bufWrite s.x.cnt.toNat s.x.word s) fun t =>
    .next (goto (afterStore (s.x.rem - 4)) { t with x.cnt := s.x.cnt + 4, x.rem := s.x.rem - 4 })

/-- State `S_R_RESTORE` (spec/41_read.md R134). -/
def stepRRestore (s : State) : Host.Outcome State Fault Refusal :=
  andThen (memWrite (effAddr s.cfg offCr) s.x.crSaved s) fun t => .next (goto .rClkdis t)

/-- State `S_R_CLKDIS` (spec/41_read.md R135). -/
def stepRClkdis (s : State) : Host.Outcome State Fault Refusal :=
  .next (goto .rRet (clkDisable s))

/-- State `S_R_RET` (spec/41_read.md R136). -/
def stepRRet (s : State) : Host.Outcome State Fault Refusal :=
  if readTimedOut s.x.cnt s.x.wait then .next (raiseOutcome .noDataTimeout s)
  else .next (ret ⟨.ok, s.x.cnt, s.hwerr⟩ s)

/-- READ: the step it takes in the FSM state `s.st` (spec/41_read.md R120, R138). The operands are latched at `Accept`;
the later steps read the latched copies. -/
def execRead (n : Nat) (wait : Bool) (s : State) : Host.Outcome State Fault Refusal :=
  match s.st with
  | .idle => stepAcceptRead n wait s
  | .rClken => stepRClken s
  | .rRdcr => stepRRdcr s
  | .rWrcr => stepRWrcr s
  | .rRdsr => stepRRdsr s
  | .rPoll => stepRPoll s
  | .rHwerr => stepRHwerr s
  | .rRddr => stepRRddr s
  | .rStore => stepRStore s
  | .rRestore => stepRRestore s
  | .rClkdis => stepRClkdis s
  | .rRet => stepRRet s
  | .iPrep | .iFail | .iRdsr | .iWrsr | .iRet | .cUnprep | .cRet => .refused .commandWhileBusy

end Sys2Proof.Machine
end

