-- ==== Sys2Proof/Machine/Dispatch.lean ====
section
/-! DEFINITION. `exec`: one arm per command (spec/30_encoding.md R92). -/

namespace Sys2Proof.Machine

def exec (i : Instr) (s : State) : Host.Outcome State Fault Refusal :=
  match i with
  | .init => Sys2Proof.Machine.execInit s
  | .read n wait => Sys2Proof.Machine.execRead n wait s
  | .cleanup => Sys2Proof.Machine.execCleanup s

end Sys2Proof.Machine
end

