-- ==== Sys2Proof/Machine/Fetch.lean ====
section
/-! DEFINITION. Which command the next step belongs to: the one in progress, or the one the host presents
(spec/10_state.md R20, spec/30_encoding.md R93). -/

namespace Sys2Proof.Machine

/-- What the next step is a step of. -/
inductive Fetched where
  /-- `S_IDLE` with no command presented: the block waits (spec/10_state.md R20). -/
  | waiting
  /-- A step of this command. -/
  | command (i : Instr)
  /-- The host presents a word that is no command (spec/30_encoding.md R94). -/
  | invalid (r : Reject)
  deriving DecidableEq, Repr

/-- In `S_IDLE` the word the host presents is decoded (spec/30_encoding.md R93). -/
def fetchPresented (l : List Presented) : Fetched :=
  match l with
  | [] => .waiting
  | p :: _ =>
    match decode p.word with
    | .ok i => .command i
    | .error r => .invalid r

/-- The command of the next step. In a working state it is the one in progress, which the state determines: READ's
operands are the length of its buffer and the latched `wait` (spec/10_state.md R20, spec/41_read.md R121). -/
def fetch (s : State) : Fetched :=
  match family s.st with
  | none => fetchPresented s.pending
  | some .init => .command .init
  | some .read => .command (.read s.buf.len s.x.wait)
  | some .cleanup => .command .cleanup

end Sys2Proof.Machine
end

