-- ==== Sys2Proof/Machine/Step.lean ====
section
/-! DEFINITION. One step of the machine: one event (spec/00_scope.md R11), or none while the block waits for a command;
and how a command word is placed for the next step. -/

namespace Sys2Proof.Machine

/-- One step. A word that is no command is refused (spec/30_encoding.md R95); with no command presented the block waits
in `S_IDLE` and nothing changes (spec/10_state.md R20; log entry 7). -/
def step (s : State) : Host.Outcome State Fault Refusal :=
  match fetch s with
  | .waiting => .next s
  | .command i => exec i s
  | .invalid r => .refused (.invalidCommand r)

/-- The value of `prepared` that the contract of a decoded command asks for (spec/30_encoding.md R93). -/
def contractPrepared (i : Option Instr) (now : Bool) : Bool :=
  match i with
  | some .init => false
  | some (.read _ _) => true
  | some .cleanup => true
  | none => now

/-- The state in which the host presents the word `w` next: the block is in `S_IDLE`, and the lifecycle has come to
where the word's command is in contract (`prepared` as its contract asks, and the clock with it), so that the very next
step accepts it. It stands for the host and for the calls before this one (log entry 9). -/
def State.withFetchWord (s : State) (nbits w : Nat) : State :=
  { s with
    st := .idle
    prepared := contractPrepared (decodeTableWord nbits w) s.prepared
    env := { s.env with clkPrepared := contractPrepared (decodeTableWord nbits w) s.env.clkPrepared, clkEnabled := false }
    pending := ⟨BitVec.ofNat 32 (w % 2 ^ nbits), []⟩ :: s.pending }

end Sys2Proof.Machine
end

