-- ==== Sys2Proof/Machine/Pseudocode.lean ====
section
/-! DEFINITION. The pseudocode of the three commands as the spec writes it, a whole call at a time (spec/40_init.md R110,
spec/41_read.md R120, spec/42_cleanup.md R160). `step` does not use it; statements compare the two (R138). Until its
`Return`, a call leaves `st` alone here: the FSM states belong to the transition table. -/

namespace Sys2Proof.Machine

/-- INIT once the clock is prepared (spec/40_init.md R110). -/
def initHardware (s : State) : Host.Outcome State Fault Refusal :=
  andThen (memRead (s.cfg.base + 0x04) s) fun p =>
  andThen (memWrite (p.2.cfg.base + 0x04) (p.1 &&& 0xFFFFFF9F) { p.2 with x.sr := p.1 }) fun t =>
  .next (ret ⟨.ok, 0, false⟩ { t with prepared := true })

/-- INIT (spec/40_init.md R110). -/
def initCall (s : State) : Host.Outcome State Fault Refusal :=
  if s.prepared then .refused .initWhilePrepared
  else
    match (clkPrepare (accept .init s)).1 with
    | .fail e => .next (raiseOutcome (.clockUnavailable e) { (clkPrepare (accept .init s)).2 with x.cause := e })
    | .ok => initHardware (clkPrepare (accept .init s)).2

/-- `repeat ... until x[sr] != 0 or x[tmo] == 0`, with the count of re-reads allowed as its bound
(spec/41_read.md R120, R128). -/
def pollPhase (bound : Nat) (s : State) : Host.Outcome State Fault Refusal :=
  match bound with
  | 0 => .next s
  | k + 1 =>
    andThen (memRead (s.cfg.base + 0x04) s) fun p =>
    if p.1 ≠ 0 ∨ s.x.tmo - 1 = 0 then .next { p.2 with x.sr := p.1, x.tmo := s.x.tmo - 1 }
    else pollPhase k { p.2 with x.sr := p.1, x.tmo := s.x.tmo - 1 }

/-- The status of one pass: a first read, and the poll phase if it reads zero and `wait` is set (spec/41_read.md R120,
R126). -/
def passStatus (s : State) : Host.Outcome State Fault Refusal :=
  andThen (memRead (s.cfg.base + 0x04) s) fun p =>
  if p.1 = 0 ∧ s.x.wait = true then
    pollPhase s.cfg.tPoll { p.2 with x.sr := p.1, x.tmo := s.cfg.tPoll }
  else .next { p.2 with x.sr := p.1 }

/-- The loop, with the number of passes the buffer has room for as its bound (spec/41_read.md R120, R125). -/
def readLoop (bound : Nat) (s : State) : Host.Outcome State Fault Refusal :=
  match bound with
  | 0 => .next s
  | k + 1 =>
    andThen (passStatus s) fun t =>
    if t.x.sr &&& 0x00000060 ≠ 0 then .next (raiseOutcome (.hardwareErrorObserved t.x.sr) t)
    else if t.x.sr = 0 then .next t
    else
      andThen (memRead (t.cfg.base + 0x08) t) fun p =>
      andThen (bufWrite p.2.x.cnt.toNat p.1 { p.2 with x.word := p.1 }) fun u =>
      if u.x.rem - 4 < 4 then .next { u with x.cnt := u.x.cnt + 4, x.rem := u.x.rem - 4 }
      else readLoop k { u with x.cnt := u.x.cnt + 4, x.rem := u.x.rem - 4 }

/-- The hardware part of READ, for `n >= 4` (spec/41_read.md R120). -/
def readHardware (n : Nat) (s : State) : Host.Outcome State Fault Refusal :=
  andThen (memRead ((clkEnable s).cfg.base + 0x00) (clkEnable s)) fun p =>
  andThen (memWrite (p.2.cfg.base + 0x00) (p.1 ||| 0x00000004) { p.2 with x.crSaved := p.1 }) fun t =>
  andThen (readLoop (n / 4) t) fun u =>
  andThen (memWrite (u.cfg.base + 0x00) u.x.crSaved u) fun v =>
  .next (clkDisable v)

/-- The end of READ (spec/41_read.md R120, R136). -/
def readReturn (s : State) : State :=
  if s.x.cnt = 0 ∧ s.x.wait = true then raiseOutcome .noDataTimeout s
  else ret ⟨.ok, s.x.cnt, s.hwerr⟩ s

/-- READ (spec/41_read.md R120). -/
def readCall (n : Nat) (wait : Bool) (s : State) : Host.Outcome State Fault Refusal :=
  if s.prepared then
    andThen
      (if 4 ≤ n then
        readHardware n { accept (.read n wait) s with
          x.wait := wait, x.rem := BitVec.ofNat 29 n, x.cnt := 0, buf := hostBuffer n (presentedBytes s) }
      else .next { accept (.read n wait) s with
          x.wait := wait, x.rem := BitVec.ofNat 29 n, x.cnt := 0, buf := hostBuffer n (presentedBytes s) })
      fun t => .next (readReturn t)
  else .refused .readWhileUnprepared

/-- CLEANUP (spec/42_cleanup.md R160). -/
def cleanupCall (s : State) : Host.Outcome State Fault Refusal :=
  if s.prepared then .next (ret ⟨.ok, 0, false⟩ { clkUnprepare (accept .cleanup s) with prepared := false })
  else .refused .cleanupWhileUnprepared

end Sys2Proof.Machine
end

