-- ==== Sys2Proof/Safety.lean ====
section
/-! DEFINITION. The terms of the claims: the invariant of the machine, the trace grammar of a READ call, the environment
properties of R47 on traces, what two runs may be compared by. -/

namespace Sys2Proof.Safety

open Sys2Proof.Machine

/-! ### The invariant -/

/-- The FSM states in which the block has enabled the clock (spec/41_read.md R122, R135; spec/10_state.md R46). -/
def clockOn (t : Fsm) : Bool :=
  match t with
  | .rRdcr | .rWrcr | .rRdsr | .rPoll | .rHwerr | .rRddr | .rStore | .rRestore | .rClkdis => true
  | .idle | .iPrep | .iFail | .iRdsr | .iWrsr | .iRet | .rClken | .rRet | .cUnprep | .cRet => false

/-- The FSM states of READ before a pass has stored or left the loop: at least 4 bytes of buffer remain
(spec/41_read.md R124, R125). -/
def roomLeft (t : Fsm) : Bool :=
  match t with
  | .rClken | .rRdcr | .rWrcr | .rRdsr | .rPoll | .rHwerr | .rRddr | .rStore => true
  | .idle | .iPrep | .iFail | .iRdsr | .iWrsr | .iRet | .rRestore | .rClkdis | .rRet | .cUnprep | .cRet => false

/-- What `prepared` is in an FSM state, where the state settles it (spec/10_state.md R22). -/
def preparedIn (t : Fsm) : Option Bool :=
  match t with
  | .idle => none
  | .iPrep | .iFail | .iRdsr | .iWrsr | .cRet => some false
  | .iRet | .rClken | .rRdcr | .rWrcr | .rRdsr | .rPoll | .rHwerr | .rRddr | .rStore | .rRestore | .rClkdis | .rRet
  | .cUnprep => some true

/-- The FSM states between INIT's `ClkPrepare -> ok` and the step that sets `prepared` (spec/40_init.md R111, R114). -/
def preparing (t : Fsm) : Bool :=
  match t with
  | .iRdsr | .iWrsr => true
  | .idle | .iPrep | .iFail | .iRet | .rClken | .rRdcr | .rWrcr | .rRdsr | .rPoll | .rHwerr | .rRddr | .rStore
  | .rRestore | .rClkdis | .rRet | .cUnprep | .cRet => false

/-- The FSM states in which a call may already have seen a hardware error, or is over (spec/10_state.md R22). -/
def mayHaveError (t : Fsm) : Bool :=
  match t with
  | .idle | .rRestore | .rClkdis | .rRet => true
  | .iPrep | .iFail | .iRdsr | .iWrsr | .iRet | .rClken | .rRdcr | .rWrcr | .rRdsr | .rPoll | .rHwerr | .rRddr
  | .rStore | .cUnprep | .cRet => false

/-- The FSM states of READ in which `cr_saved` holds the word read from CR and may still be written back
(spec/41_read.md R123, R124, R134). -/
def savedCr (t : Fsm) : Bool :=
  match t with
  | .rWrcr | .rRdsr | .rPoll | .rHwerr | .rRddr | .rStore | .rRestore => true
  | .idle | .iPrep | .iFail | .iRdsr | .iWrsr | .iRet | .rClken | .rRdcr | .rClkdis | .rRet | .cUnprep | .cRet => false

/-- The bits of SR the spec names (spec/10_state.md R32). -/
def knownSr : Word := 0x00000061

/-- The bit of CR the spec names (spec/10_state.md R31). -/
def knownCr : Word := 0x00000004

/-- The invariant of the machine. -/
structure MachineInv (s : State) : Prop where
  /-- The parameters meet their constraints (spec/00_scope.md R7, R9). -/
  cfgOk : s.cfg.Ok
  /-- The buffer's cells are in canonical form. -/
  bufWf : s.buf.bytes.wf
  /-- Every cell lies in the buffer (spec/10_state.md R36). -/
  bufIn : ∀ c ∈ s.buf.bytes, c.1 < s.buf.len
  /-- So are the cells of the buffers the host has still to bring. -/
  pendingWf : ∀ p ∈ s.pending, p.buffer.wf
  /-- `0 <= tmo <= T_POLL` (spec/10_state.md R21). -/
  tmoLe : s.x.tmo ≤ s.cfg.tPoll
  /-- `prepared` fits the FSM state (spec/10_state.md R22). -/
  preparedFits : ∀ b, preparedIn s.st = some b → s.prepared = b
  /-- The clock is prepared exactly between a successful `ClkPrepare` and `ClkUnprepare` (spec/10_state.md R46). -/
  clkPreparedFits : s.env.clkPrepared = (s.prepared || preparing s.st)
  /-- The clock is enabled exactly during the hardware part of READ (spec/10_state.md R46). -/
  clkEnabledFits : s.env.clkEnabled = clockOn s.st
  /-- `hwerr` is clear until a READ call evaluates an error bit (spec/10_state.md R22). -/
  hwerrFits : mayHaveError s.st = false → s.hwerr = false
  /-- In a READ call the length fits its field (spec/41_read.md R120). -/
  lenFits : family s.st = some .read → s.buf.len < 2 ^ 29
  /-- `cnt + rem == n` (spec/41_read.md R137). -/
  counters : family s.st = some .read → s.x.cnt.toNat + s.x.rem.toNat = s.buf.len
  /-- `cnt` is a multiple of 4 (spec/41_read.md R137). -/
  cntAligned : family s.st = some .read → s.x.cnt.toNat % 4 = 0
  /-- A pass has room for a word (spec/41_read.md R125). -/
  room : roomLeft s.st = true → 4 ≤ s.x.rem.toNat
  /-- In the poll phase `1 <= tmo`, and `wait` is set (spec/41_read.md R126, R128). -/
  polling : s.st = .rPoll → 1 ≤ s.x.tmo ∧ s.x.wait = true
  /-- `S_R_HWERR` is reached with an error bit (spec/41_read.md R129). -/
  errorSeen : s.st = .rHwerr → nextOf s.x.sr = .rHwerr
  /-- DR is read and stored only after a nonzero, error-free status word of the same pass (spec/41_read.md R143). -/
  dataSeen : s.st = .rRddr ∨ s.st = .rStore → nextOf s.x.sr = .rRddr
  /-- The reference peripheral holds the unrecognised bits of SR at zero (spec/10_state.md R47). -/
  refSr : s.env.kind = .reference → s.env.win.sr &&& ~~~knownSr = 0
  /-- And those of CR (spec/10_state.md R47). -/
  refCr : s.env.kind = .reference → s.env.win.cr &&& ~~~knownCr = 0
  /-- So no word the block may write back to its CR has one set (spec/41_read.md R124, R134). -/
  refSaved : s.env.kind = .reference → savedCr s.st = true → s.x.crSaved &&& ~~~knownCr = 0

/-! ### Traces -/

/-- `SR(v)`: a read of SR (spec/41_read.md R139). -/
def srRead (v : Word) : Event := .regRead 0x04 v

/-- `BufWrite(i, bytes(w))` (spec/00_scope.md R16). -/
def storeEvent (o : ByteOrder) (i : Nat) (w : Word) : Event :=
  .bufWrite i (byteAt o w 0) (byteAt o w 1) (byteAt o w 2) (byteAt o w 3)

/-- `STATUS(v)`: the status reads of a pass that evaluates `v`; `budget` is `T_POLL` (spec/41_read.md R139). -/
inductive StatusTrace (budget : Nat) (wait : Bool) : Word → List Event → Prop where
  | ready (v : Word) (hv : v ≠ 0) : StatusTrace budget wait v [srRead v]
  | empty (hw : wait = false) : StatusTrace budget wait 0 [srRead 0]
  | polled (v : Word) (j : Nat) (hw : wait = true) (hv : v ≠ 0) (hj : j ≤ budget - 1) :
      StatusTrace budget wait v (srRead 0 :: (List.replicate j (srRead 0) ++ [srRead v]))
  | exhausted (hw : wait = true) : StatusTrace budget wait 0 (srRead 0 :: List.replicate budget (srRead 0))

/-- `PRODUCE{p} ; [STOP]` from pass number `k` on: the events, the number `p` of words the call produced, and whether an
error bit stopped it (spec/41_read.md R139). -/
inductive LoopTrace (budget : Nat) (wait : Bool) (o : ByteOrder) (n : Nat) : Nat → List Event → Nat → Bool → Prop where
  | full (k : Nat) (hk : k = n / 4) : LoopTrace budget wait o n k [] k false
  | stopError (k : Nat) (v : Word) (status : List Event) (hk : k < n / 4) (hs : StatusTrace budget wait v status)
      (hv : v &&& 0x00000060 ≠ 0) : LoopTrace budget wait o n k (status ++ [.hwError v]) k true
  | stopEmpty (k : Nat) (status : List Event) (hk : k < n / 4) (hs : StatusTrace budget wait 0 status) :
      LoopTrace budget wait o n k status k false
  | produce (k : Nat) (v w : Word) (status rest : List Event) (p : Nat) (h : Bool) (hk : k < n / 4)
      (hs : StatusTrace budget wait v status) (hv : v ≠ 0) (he : v &&& 0x00000060 = 0)
      (hr : LoopTrace budget wait o n (k + 1) rest p h) :
      LoopTrace budget wait o n k (status ++ (.regRead 0x08 w :: storeEvent o (4 * k) w :: rest)) p h

/-- The status `S` of a READ that produced `p` words (spec/41_read.md R139). -/
def readStatus (p : Nat) (wait : Bool) : Status := if p = 0 ∧ wait = true then .noDataTimeout else .ok

/-- The trace of one READ call (spec/41_read.md R139). -/
inductive ReadTrace (budget : Nat) (o : ByteOrder) (n : Nat) (wait : Bool) : List Event → Prop where
  | short (hn : n < 4) :
      ReadTrace budget o n wait [.accept (.read n wait), .ret ⟨readStatus 0 wait, 0, false⟩]
  | long (c : Word) (loop : List Event) (p : Nat) (h : Bool) (hn : 4 ≤ n) (hl : LoopTrace budget wait o n 0 loop p h) :
      ReadTrace budget o n wait
        ([.accept (.read n wait), .clkEnable, .regRead 0x00 c, .regWrite 0x00 (c ||| 0x00000004)] ++ loop ++
          [.regWrite 0x00 c, .clkDisable, .ret ⟨readStatus p wait, BitVec.ofNat 29 (4 * p), h⟩])

/-- How many status reads a trace holds (spec/41_read.md R140). -/
def countSr (tr : List Event) : Nat :=
  match tr with
  | [] => 0
  | .regRead off _ :: t => (if off = 0x04 then 1 else 0) + countSr t
  | _ :: t => countSr t

/-- `ENV_CR`: every read of CR returns the last word written to CR, or `cur` before the first write
(spec/10_state.md R47). -/
def EnvCr (cur : Word) (tr : List Event) : Prop :=
  match tr with
  | [] => True
  | .regRead off v :: t => (off = 0x00 → v = cur) ∧ EnvCr cur t
  | .regWrite off v :: t => EnvCr (if off = 0x00 then v else cur) t
  | _ :: t => EnvCr cur t

/-- `ENV_ERR`: an error bit of `latched`, or one that a read has shown, reads as set until a write to SR with that bit
zero (spec/10_state.md R47). -/
def EnvErr (latched : Word) (tr : List Event) : Prop :=
  match tr with
  | [] => True
  | .regRead off v :: t =>
    (off = 0x04 → latched &&& ~~~v = 0) ∧ EnvErr (if off = 0x04 then v &&& maskErr else latched) t
  | .regWrite off v :: t => EnvErr (if off = 0x04 then latched &&& v else latched) t
  | _ :: t => EnvErr latched t

/-! ### Calls -/

/-- The host presents the command `i` to the waiting block (spec/30_encoding.md R93). -/
def Presents (s : State) (i : Instr) : Prop :=
  s.st = .idle ∧ ∃ p rest, s.pending = p :: rest ∧ decode p.word = .ok i

/-- `k` steps. -/
abbrev run (k : Nat) (s : State) : Host.Outcome State Fault Refusal := Sys2Proof.core.run k s

/-- `k` steps from `s` are one call, from its `Accept` to its `Return`, and end in `t` (spec/00_scope.md section 8). -/
def CallEnds (k : Nat) (s t : State) : Prop :=
  1 ≤ k ∧ run k s = .next t ∧ t.st = .idle ∧ ∀ j, 1 ≤ j → j < k → ∃ u, run j s = .next u ∧ u.st ≠ .idle

/-! ### The environment properties on the peripheral's registers -/

/-- One transaction on the window: its event, what it found in the registers, and what it left there. Between two
transactions the peripheral makes its own changes (spec/20_memory.md R75). -/
structure Transaction where
  event : Event
  found : Window
  left : Window
  deriving DecidableEq, Repr

/-- Is the event a transaction on the window (spec/00_scope.md R11)? -/
def onWindow (e : Event) : Bool :=
  match e with
  | .regRead _ _ | .regWrite _ _ => true
  | .accept _ | .clkPrepare _ | .clkUnprepare | .clkEnable | .clkDisable | .bufWrite _ _ _ _ _ | .hwError _ | .ret _ =>
    false

/-- The transaction of the step from `s` to `t` with the reference peripheral, if the step makes one. -/
def transactionOf (s t : State) : List Transaction :=
  ((t.trace.drop s.trace.length).filter onWindow).map (fun e => ⟨e, (periphTurn s.env).win, t.env.win⟩)

/-- The transactions of a run with the reference peripheral, in order. -/
def transactions (k : Nat) (s : State) : List Transaction :=
  match k with
  | 0 => []
  | k + 1 =>
    match step s with
    | .next t => transactionOf s t ++ transactions k t
    | .fault _ => []
    | .refused _ => []

/-- `ENV_DRDY`, from registers `w` on: SR bit 0 is set only by the peripheral between transactions, only while CR bit 2
is set; while it is set DR holds the completed word; a read of DR then returns that word and clears it
(spec/10_state.md R47, from R40 to R42). -/
def EnvDrdy (w : Window) (ts : List Transaction) : Prop :=
  match ts with
  | [] => True
  | t :: rest =>
    (t.found.sr.getLsbD 0 = true → w.sr.getLsbD 0 = true ∨ w.cr.getLsbD 2 = true) ∧
    (w.sr.getLsbD 0 = true → t.found.sr.getLsbD 0 = true → t.found.dr = w.dr) ∧
    (t.left.sr.getLsbD 0 = true → t.found.sr.getLsbD 0 = true) ∧
    (∀ v, t.event = .regRead 0x08 v → t.found.sr.getLsbD 0 = true → v = t.found.dr ∧ t.left.sr.getLsbD 0 = false) ∧
    EnvDrdy t.left rest

/-- `ENV_SRW`: a write of `v` to SR keeps bit 5 and bit 6 only where `v` has them set and changes no other bit
(spec/10_state.md R44, R47). -/
def EnvSrw (ts : List Transaction) : Prop :=
  ∀ t ∈ ts, ∀ v, t.event = .regWrite 0x04 v → ∀ i, i < 32 →
    t.left.sr.getLsbD i = if i = 5 ∨ i = 6 then t.found.sr.getLsbD i && v.getLsbD i else t.found.sr.getLsbD i

/-- Changes of the registers that the peripheral makes on its own (spec/10_state.md R41, R43). None of them discards a
completed word: that one survives while the generator is idle is the model's DESIGN CHOICE (log entry 22). -/
inductive OwnMoves : Window → Window → Prop where
  | none (w : Window) : OwnMoves w w
  | move (a : PeriphAct) (w w' w'' : Window) (h : periphAct a w = some w') (hr : OwnMoves w' w'') : OwnMoves w w''

/-- `ENV_SOLE`, from registers `w` on: no other master acts, so between two transactions the registers change by the
peripheral's own moves alone (spec/10_state.md R47, R48). -/
def EnvSole (w : Window) (ts : List Transaction) : Prop :=
  match ts with
  | [] => True
  | t :: rest => OwnMoves w t.found ∧ EnvSole t.left rest

/-- Every unrecognised bit of CR and SR is zero (spec/10_state.md R31, R32, R47). -/
def NamedBitsOnly (w : Window) : Prop := w.cr &&& ~~~knownCr = 0 ∧ w.sr &&& ~~~knownSr = 0

/-! ### Comparing runs -/

/-- What a claim about two runs may look at: everything but the working registers and `hwerr`. -/
structure Seen where
  st : Fsm
  prepared : Bool
  response : Option Response
  buf : Buffer
  env : Env
  pending : List Presented
  trace : List Event
  deriving DecidableEq, Repr

/-- What is seen of an outcome. -/
def seen (o : Host.Outcome State Fault Refusal) : Host.Outcome Seen Fault Refusal :=
  match o with
  | .next s => .next ⟨s.st, s.prepared, s.response, s.buf, s.env, s.pending, s.trace⟩
  | .fault r => .fault r
  | .refused r => .refused r

end Sys2Proof.Safety
end

