-- ==== Sys2Proof/Certificates/Slice0/Obligations.lean ====
section
/-! DEFINITION. The statements for the provers. Each docstring names the rule of the spec it formalises. -/

open Sys2Proof Sys2Proof.Machine Sys2Proof.Safety

/-! ### Command and response words -/

/-- The round trip of every command (spec/30_encoding.md R90 to R92, spec/95_test_vectors.md section 2.1). -/
def Obligations.DecodeEncodeRoundTrip : Prop :=
  ∀ i : Instr, i.WellFormed → decode (encode i) = .ok i

/-- A word that decodes is the one word of its command (spec/30_encoding.md R90 to R92). -/
def Obligations.DecodedWordIsItsEncoding : Prop :=
  ∀ (w : Word) (i : Instr), decode w = .ok i → i.WellFormed ∧ encode i = w

/-- The invalid words (spec/30_encoding.md R94). -/
def Obligations.InvalidWordsAreThese : Prop :=
  ∀ w : Word,
    ((∃ r, decode w = .error r) ↔ opField w = 0b11 ∨ ((opField w = 0b00 ∨ opField w = 0b10) ∧ w >>> 2 ≠ 0)) ∧
    (opField w = 0b01 → decode w = .ok (.read (lenField w) (waitField w)))

/-- The three rows are disjoint (spec/30_encoding.md R92). -/
def Obligations.OpcodeRowsAreDisjoint : Prop :=
  ∀ (w : Word) (a b : OpcodeRow), a ∈ opcodeMap → b ∈ opcodeMap → a.selects w = true → b.selects w = true → a = b

/-- Words written out from the spec's encodings (spec/30_encoding.md R92, spec/95_test_vectors.md section 2.1). -/
def Obligations.SampleWordsDecode : Prop :=
  decode 0x00000000 = .ok .init ∧ decode 0x00000002 = .ok .cleanup ∧
  decode 0x00000045 = .ok (.read 8 true) ∧ decode 0x00000041 = .ok (.read 8 false) ∧
  decode 0x0000001D = .ok (.read 3 true) ∧ decode 0x00000001 = .ok (.read 0 false) ∧
  decode 0xFFFFFFFD = .ok (.read 536870911 true) ∧
  decode 0x00000003 = .error .reservedOp ∧ decode 0x00000004 = .error .initBitsNotZero ∧
  decode 0x0000000A = .error .cleanupBitsNotZero

/-- The fields of the response word (spec/30_encoding.md R96, R97). -/
def Obligations.ResponseWordFields : Prop :=
  ∀ r : Response,
    (responseWord r).extractLsb' 3 29 = r.payload ∧ (responseWord r).getLsbD 2 = r.hwerr ∧
    (responseWord r).extractLsb' 0 2 = statusCode r.status ∧ statusCode r.status ≠ 0b11

/-! ### Steps, refusals, reset -/

/-- A step is a step of the command in progress, or of the one the host presents (spec/10_state.md R20,
spec/30_encoding.md R93); with none presented the block waits (log entry 7: the wait leaves everything as it is). -/
def Obligations.StepRunsTheDecodedCommand : Prop :=
  ∀ s : State,
    (∀ p rest i, s.st = .idle → s.pending = p :: rest → decode p.word = .ok i → step s = exec i s) ∧
    (family s.st = some .init → step s = exec .init s) ∧
    (family s.st = some .read → step s = exec (.read s.buf.len s.x.wait) s) ∧
    (family s.st = some .cleanup → step s = exec .cleanup s) ∧
    (s.st = .idle → s.pending = [] → step s = .next s)

/-- Invalid words and commands out of contract are refused (spec/30_encoding.md R95). -/
def Obligations.OutOfContractIsRefused : Prop :=
  ∀ s : State, s.st = .idle →
    (∀ p rest r, s.pending = p :: rest → decode p.word = .error r → step s = .refused (.invalidCommand r)) ∧
    (s.prepared = true → exec .init s = .refused .initWhilePrepared) ∧
    (s.prepared = false → ∀ n wait, exec (.read n wait) s = .refused .readWhileUnprepared) ∧
    (s.prepared = false → exec .cleanup s = .refused .cleanupWhileUnprepared)

/-- A step is one event, or the wait of an idle block with no command presented; only in `S_IDLE` is a command taken,
and then `hwerr` is cleared (spec/00_scope.md R11, R12, spec/30_encoding.md R93). -/
def Obligations.StepIsOneEvent : Prop :=
  ∀ s t : State, step s = .next t →
    (s.st = .idle ∧ s.pending = [] ∧ t = s) ∨
    (s.st = .idle ∧ ∃ p i, s.pending = p :: t.pending ∧ decode p.word = .ok i ∧ t.trace = s.trace ++ [.accept i] ∧
      t.hwerr = false) ∨
    (s.st ≠ .idle ∧ t.pending = s.pending ∧ ∃ e, t.trace = s.trace ++ [e] ∧ ∀ i, e ≠ .accept i)

/-- In every working state the block has an enabled step (spec/10_state.md R20). -/
def Obligations.WorkingStatesAlwaysStep : Prop :=
  ∀ s : State, MachineInv s → s.st ≠ .idle → ∃ t, step s = .next t

/-- No access leaves the window or the buffer (spec/00_scope.md R13, R14, R16). -/
def Obligations.StepNeverFaults : Prop :=
  ∀ s : State, MachineInv s → ∀ f, step s ≠ .fault f

/-- Every step keeps the invariant (spec/10_state.md R21, R22, R46, spec/41_read.md R125, R137, R143). -/
def Obligations.StepKeepsInv : Prop :=
  ∀ s t : State, MachineInv s → step s = .next t → MachineInv t

/-- The state at construction meets the invariant. -/
def Obligations.ResetMeetsInv : Prop := MachineInv State.reset

/-- What construction leaves, as far as the spec says it (spec/10_state.md R50, spec/70_reset_and_hazards.md R200). -/
def Obligations.ResetState : Prop :=
  State.reset.st = .idle ∧ State.reset.prepared = false ∧ State.reset.hwerr = false ∧ State.reset.response = none ∧
  State.reset.env.clkPrepared = false ∧ State.reset.env.clkEnabled = false ∧ State.reset.buf.len = 0 ∧
  State.reset.cfg.byteOrder = .le ∧ State.reset.cfg.Ok

/-- Every parameter is fixed for the life of an instance (spec/00_scope.md R7). -/
def Obligations.ParametersNeverChange : Prop :=
  ∀ s t : State, step s = .next t → t.cfg = s.cfg

/-- Which registers of the window each command reads and writes, in which FSM state, and the words it writes
(spec/10_state.md R34, R35, spec/41_read.md R143). -/
def Obligations.CommandsTouchOnlyTheirRegisters : Prop :=
  ∀ (s t : State) (off : Nat) (v : Word),
    (exec .init s = .next t →
      (t.trace = s.trace ++ [.regRead off v] → off = 0x04 ∧ s.st = .iRdsr) ∧
      (t.trace = s.trace ++ [.regWrite off v] → off = 0x04 ∧ s.st = .iWrsr ∧ v = s.x.sr &&& 0xFFFFFF9F)) ∧
    (∀ n wait, exec (.read n wait) s = .next t →
      (t.trace = s.trace ++ [.regRead off v] →
        (off = 0x00 ∧ s.st = .rRdcr) ∨ (off = 0x04 ∧ (s.st = .rRdsr ∨ s.st = .rPoll)) ∨ (off = 0x08 ∧ s.st = .rRddr)) ∧
      (t.trace = s.trace ++ [.regWrite off v] →
        off = 0x00 ∧ ((s.st = .rWrcr ∧ v = s.x.crSaved ||| 0x00000004) ∨ (s.st = .rRestore ∧ v = s.x.crSaved)))) ∧
    (exec .cleanup s = .next t → t.trace ≠ s.trace ++ [.regRead off v] ∧ t.trace ≠ s.trace ++ [.regWrite off v])

/-- The responses each command may give (spec/30_encoding.md R96, R97). -/
def Obligations.ResponsesAreLegal : Prop :=
  ∀ (s t : State) (r : Response), MachineInv s → step s = .next t → t.trace = s.trace ++ [.ret r] →
    t.response = some r ∧ t.st = .idle ∧
    (family s.st = some .init → r = ⟨.ok, 0, false⟩ ∨ r = ⟨.clockUnavailable, s.x.cause, false⟩) ∧
    (family s.st = some .read →
      r.status ≠ .clockUnavailable ∧ (r.status = .noDataTimeout ↔ r.payload = 0 ∧ s.x.wait = true) ∧
      r.payload = s.x.cnt ∧ r.payload.toNat % 4 = 0 ∧ r.payload.toNat ≤ s.buf.len) ∧
    (family s.st = some .cleanup → r = ⟨.ok, 0, false⟩)

/-! ### INIT -/

/-- `Accept` of INIT (spec/30_encoding.md R93). -/
def Obligations.InitIsAccepted : Prop :=
  ∀ s : State, s.st = .idle → s.prepared = false →
    exec .init s = .next { s with
      st := .iPrep, hwerr := false, pending := s.pending.tail, trace := s.trace ++ [.accept .init] }

/-- `S_I_PREP` (spec/40_init.md R111). -/
def Obligations.InitPreparesTheClock : Prop :=
  ∀ s : State, s.st = .iPrep →
    (drawPrep s.env = .ok →
      exec .init s = .next { s with
        st := .iRdsr
        env := { s.env with
          clkPrepared := true, prepAnswers := s.env.prepAnswers.tail, draws := s.env.draws + 1 }
        trace := s.trace ++ [.clkPrepare .ok] }) ∧
    (∀ e, drawPrep s.env = .fail e →
      exec .init s = .next { s with
        st := .iFail
        x := { s.x with cause := e }
        env := { s.env with prepAnswers := s.env.prepAnswers.tail, draws := s.env.draws + 1 }
        trace := s.trace ++ [.clkPrepare (.fail e)] })

/-- `S_I_FAIL` (spec/40_init.md R112). -/
def Obligations.InitReportsClockFailure : Prop :=
  ∀ s : State, s.st = .iFail →
    exec .init s = .next { s with
      st := .idle
      response := some ⟨.clockUnavailable, s.x.cause, false⟩
      trace := s.trace ++ [.ret ⟨.clockUnavailable, s.x.cause, false⟩] }

/-- `S_I_RDSR` (spec/40_init.md R113). -/
def Obligations.InitReadsStatus : Prop :=
  ∀ s : State, s.st = .iRdsr → s.cfg.Placed →
    exec .init s = .next { s with
      st := .iWrsr
      x := { s.x with sr := (envRead s.env .sr).1 }
      env := (envRead s.env .sr).2
      trace := s.trace ++ [.regRead 0x04 (envRead s.env .sr).1] }

/-- `S_I_WRSR`: exactly the two error bits are cleared (spec/40_init.md R114). -/
def Obligations.InitClearsTheErrorBits : Prop :=
  ∀ s : State, s.st = .iWrsr → s.cfg.Placed →
    exec .init s = .next { s with
      st := .iRet
      prepared := true
      env := envWrite s.env .sr (s.x.sr &&& 0xFFFFFF9F)
      trace := s.trace ++ [.regWrite 0x04 (s.x.sr &&& 0xFFFFFF9F)] } ∧
    ∀ i, (s.x.sr &&& 0xFFFFFF9F).getLsbD i = if i = 5 ∨ i = 6 then false else s.x.sr.getLsbD i

/-- `S_I_RET`; after it READ and CLEANUP are in contract, since `prepared` is set (spec/40_init.md R115). -/
def Obligations.InitReturnsOk : Prop :=
  ∀ s : State, s.st = .iRet →
    exec .init s = .next { s with
      st := .idle, response := some ⟨.ok, 0, false⟩, trace := s.trace ++ [.ret ⟨.ok, 0, false⟩] } ∧
    responseWord ⟨.ok, 0, false⟩ = 0x00000000 ∧ (MachineInv s → s.prepared = true)

/-- What INIT leaves unchanged (spec/10_state.md R21, R22, spec/40_init.md R110, R116). That the clock's steps leave
the reference peripheral's registers alone is the model's choice (log entry 19). -/
def Obligations.InitFrame : Prop :=
  ∀ s t : State, exec .init s = .next t →
    t.cfg = s.cfg ∧ t.x.crSaved = s.x.crSaved ∧ t.x.word = s.x.word ∧ t.x.tmo = s.x.tmo ∧ t.x.rem = s.x.rem ∧
    t.x.cnt = s.x.cnt ∧ t.x.wait = s.x.wait ∧
    (s.st ≠ .iRdsr → t.x.sr = s.x.sr) ∧ (s.st ≠ .iPrep → t.x.cause = s.x.cause) ∧
    (s.st ≠ .idle → t.hwerr = s.hwerr ∧ t.pending = s.pending) ∧
    (s.st ≠ .iWrsr → t.prepared = s.prepared) ∧
    (s.st ≠ .iFail → s.st ≠ .iRet → t.response = s.response) ∧
    t.buf.len = s.buf.len ∧ (∀ a, readByte t.buf.bytes a = readByte s.buf.bytes a) ∧
    t.env.kind = s.env.kind ∧ t.env.clkEnabled = s.env.clkEnabled ∧
    (s.st ≠ .iPrep → t.env.clkPrepared = s.env.clkPrepared) ∧
    (s.st ≠ .iRdsr → s.st ≠ .iWrsr → t.env.win = s.env.win)

/-- The trace of one INIT call: one of two, 5 steps or 3 (spec/40_init.md R117). -/
def Obligations.InitCallTrace : Prop :=
  ∀ s : State, Presents s .init → s.prepared = false → s.cfg.Placed →
    (∃ v t, CallEnds 5 s t ∧ t.prepared = true ∧ t.response = some ⟨.ok, 0, false⟩ ∧
      t.trace = s.trace ++ [.accept .init, .clkPrepare .ok, .regRead 0x04 v, .regWrite 0x04 (v &&& 0xFFFFFF9F),
        .ret ⟨.ok, 0, false⟩]) ∨
    (∃ e t, CallEnds 3 s t ∧ t.prepared = false ∧ t.response = some ⟨.clockUnavailable, e, false⟩ ∧
      t.trace = s.trace ++ [.accept .init, .clkPrepare (.fail e), .ret ⟨.clockUnavailable, e, false⟩])

/-- The steps of INIT and its pseudocode are the same machine (spec/40_init.md R110). -/
def Obligations.InitStepsMatchPseudocode : Prop :=
  ∀ s : State, Presents s .init → ∃ k, 1 ≤ k ∧ k ≤ 5 ∧ run k s = initCall s

/-! ### READ -/

/-- `Accept` of READ (spec/41_read.md R121). -/
def Obligations.ReadIsAccepted : Prop :=
  ∀ (s : State) (n : Nat) (wait : Bool), s.st = .idle → s.prepared = true → n < 2 ^ 29 →
    exec (.read n wait) s = .next { s with
      st := if 4 ≤ n then .rClken else .rRet
      x := { s.x with wait := wait, rem := BitVec.ofNat 29 n, cnt := 0 }
      hwerr := false
      buf := hostBuffer n (presentedBytes s)
      pending := s.pending.tail
      trace := s.trace ++ [.accept (.read n wait)] } ∧
    (BitVec.ofNat 29 n).toNat = n

/-- A READ of fewer than 4 bytes is `Accept ; Return`: no clock, no register, no buffer byte (spec/41_read.md R121,
R136). -/
def Obligations.ShortReadTouchesNothing : Prop :=
  ∀ (s : State) (n : Nat) (wait : Bool), Presents s (.read n wait) → s.prepared = true → n < 4 →
    ∃ t, CallEnds 2 s t ∧ t.env = s.env ∧
      t.response = some ⟨if wait then .noDataTimeout else .ok, 0, false⟩ ∧
      t.trace = s.trace ++ [.accept (.read n wait), .ret ⟨if wait then .noDataTimeout else .ok, 0, false⟩] ∧
      ∀ a, a < n → readByte t.buf.bytes a = readByte (presentedBytes s) a

/-- `S_R_CLKEN` (spec/41_read.md R122). -/
def Obligations.ReadGatesTheClockOn : Prop :=
  ∀ (s : State) (n : Nat) (wait : Bool), s.st = .rClken →
    exec (.read n wait) s = .next { s with
      st := .rRdcr, env := { s.env with clkEnabled := true }, trace := s.trace ++ [.clkEnable] }

/-- `S_R_RDCR` (spec/41_read.md R123). -/
def Obligations.ReadSavesTheControlRegister : Prop :=
  ∀ (s : State) (n : Nat) (wait : Bool), s.st = .rRdcr → s.cfg.Placed →
    exec (.read n wait) s = .next { s with
      st := .rWrcr
      x := { s.x with crSaved := (envRead s.env .cr).1 }
      env := (envRead s.env .cr).2
      trace := s.trace ++ [.regRead 0x00 (envRead s.env .cr).1] }

/-- `S_R_WRCR`: only bit 2 can differ from the word read (spec/41_read.md R124). -/
def Obligations.ReadSetsTheEnableBit : Prop :=
  ∀ (s : State) (n : Nat) (wait : Bool), s.st = .rWrcr → s.cfg.Placed →
    exec (.read n wait) s = .next { s with
      st := .rRdsr
      env := envWrite s.env .cr (s.x.crSaved ||| 0x00000004)
      trace := s.trace ++ [.regWrite 0x00 (s.x.crSaved ||| 0x00000004)] } ∧
    ∀ i, (s.x.crSaved ||| 0x00000004).getLsbD i = if i = 2 then true else s.x.crSaved.getLsbD i

/-- `S_R_RDSR` (spec/41_read.md R126). -/
def Obligations.ReadFirstStatus : Prop :=
  ∀ (s : State) (n : Nat) (wait : Bool), s.st = .rRdsr → s.cfg.Placed →
    ((envRead s.env .sr).1 = 0 ∧ s.x.wait = true →
      exec (.read n wait) s = .next { s with
        st := .rPoll
        x := { s.x with sr := (envRead s.env .sr).1, tmo := s.cfg.tPoll }
        env := (envRead s.env .sr).2
        trace := s.trace ++ [.regRead 0x04 (envRead s.env .sr).1] }) ∧
    (¬((envRead s.env .sr).1 = 0 ∧ s.x.wait = true) →
      exec (.read n wait) s = .next { s with
        st := nextOf (envRead s.env .sr).1
        x := { s.x with sr := (envRead s.env .sr).1 }
        env := (envRead s.env .sr).2
        trace := s.trace ++ [.regRead 0x04 (envRead s.env .sr).1] })

/-- `S_R_POLL`: one re-read; the budget is inclusive of its last re-read (spec/41_read.md R128). -/
def Obligations.ReadPollsOnce : Prop :=
  ∀ (s : State) (n : Nat) (wait : Bool), s.st = .rPoll → s.cfg.Placed → 1 ≤ s.x.tmo →
    ((envRead s.env .sr).1 = 0 ∧ s.x.tmo ≠ 1 →
      exec (.read n wait) s = .next { s with
        x := { s.x with sr := (envRead s.env .sr).1, tmo := s.x.tmo - 1 }
        env := (envRead s.env .sr).2
        trace := s.trace ++ [.regRead 0x04 (envRead s.env .sr).1] }) ∧
    (¬((envRead s.env .sr).1 = 0 ∧ s.x.tmo ≠ 1) →
      exec (.read n wait) s = .next { s with
        st := nextOf (envRead s.env .sr).1
        x := { s.x with sr := (envRead s.env .sr).1, tmo := s.x.tmo - 1 }
        env := (envRead s.env .sr).2
        trace := s.trace ++ [.regRead 0x04 (envRead s.env .sr).1] })

/-- `next(v)`: error bits, then zero, then data; and the detector is bit 5 or bit 6 (spec/41_read.md R129,
spec/60_exceptions.md R174). -/
def Obligations.StatusEvaluationOrder : Prop :=
  ∀ v : Word,
    (v &&& 0x00000060 ≠ 0 → nextOf v = .rHwerr) ∧
    (v = 0 → nextOf v = .rRestore) ∧
    (v ≠ 0 → v &&& 0x00000060 = 0 → nextOf v = .rRddr) ∧
    (v &&& 0x00000060 ≠ 0 ↔ v.getLsbD 5 = true ∨ v.getLsbD 6 = true)

/-- `S_R_HWERR` (spec/41_read.md R131). -/
def Obligations.ReadSignalsHardwareError : Prop :=
  ∀ (s : State) (n : Nat) (wait : Bool), s.st = .rHwerr →
    exec (.read n wait) s = .next { s with
      st := .rRestore, hwerr := true, trace := s.trace ++ [.hwError s.x.sr] }

/-- `S_R_RDDR` (spec/41_read.md R132). -/
def Obligations.ReadTakesTheDataWord : Prop :=
  ∀ (s : State) (n : Nat) (wait : Bool), s.st = .rRddr → s.cfg.Placed →
    exec (.read n wait) s = .next { s with
      st := .rStore
      x := { s.x with word := (envRead s.env .dr).1 }
      env := (envRead s.env .dr).2
      trace := s.trace ++ [.regRead 0x08 (envRead s.env .dr).1] }

/-- `S_R_STORE` (spec/41_read.md R133), with the buffer's bytes in the order of spec/20_memory.md R64. -/
def Obligations.ReadStoresTheWord : Prop :=
  ∀ (s : State) (n : Nat) (wait : Bool), s.st = .rStore → s.x.cnt.toNat + 4 ≤ s.buf.len →
    ∃ t, exec (.read n wait) s = .next t ∧
      t.st = (if 4 ≤ (s.x.rem - 4).toNat then .rRdsr else .rRestore) ∧
      t.x = { s.x with cnt := s.x.cnt + 4, rem := s.x.rem - 4 } ∧
      t.buf.len = s.buf.len ∧
      (∀ k, k < 4 → readByte t.buf.bytes (s.x.cnt.toNat + k) =
        some (match s.cfg.byteOrder with
          | .le => s.x.word.extractLsb' (8 * k) 8
          | .be => s.x.word.extractLsb' (8 * (3 - k)) 8)) ∧
      (∀ a, a < s.x.cnt.toNat ∨ s.x.cnt.toNat + 4 ≤ a → readByte t.buf.bytes a = readByte s.buf.bytes a) ∧
      t.trace = s.trace ++ [storeEvent s.cfg.byteOrder s.x.cnt.toNat s.x.word]

/-- `S_R_RESTORE` (spec/41_read.md R134). -/
def Obligations.ReadRestoresTheControlRegister : Prop :=
  ∀ (s : State) (n : Nat) (wait : Bool), s.st = .rRestore → s.cfg.Placed →
    exec (.read n wait) s = .next { s with
      st := .rClkdis
      env := envWrite s.env .cr s.x.crSaved
      trace := s.trace ++ [.regWrite 0x00 s.x.crSaved] }

/-- `S_R_CLKDIS` (spec/41_read.md R135). -/
def Obligations.ReadGatesTheClockOff : Prop :=
  ∀ (s : State) (n : Nat) (wait : Bool), s.st = .rClkdis →
    exec (.read n wait) s = .next { s with
      st := .rRet, env := { s.env with clkEnabled := false }, trace := s.trace ++ [.clkDisable] }

/-- `S_R_RET`: the three rows (spec/41_read.md R136). -/
def Obligations.ReadReturnsTheCount : Prop :=
  ∀ (s : State) (n : Nat) (wait : Bool), s.st = .rRet →
    (s.x.cnt ≠ 0 → exec (.read n wait) s = .next { s with
      st := .idle
      response := some ⟨.ok, s.x.cnt, s.hwerr⟩
      trace := s.trace ++ [.ret ⟨.ok, s.x.cnt, s.hwerr⟩] }) ∧
    (s.x.cnt = 0 → s.x.wait = false → exec (.read n wait) s = .next { s with
      st := .idle
      response := some ⟨.ok, 0, s.hwerr⟩
      trace := s.trace ++ [.ret ⟨.ok, 0, s.hwerr⟩] }) ∧
    (s.x.cnt = 0 → s.x.wait = true → exec (.read n wait) s = .next { s with
      st := .idle
      response := some ⟨.noDataTimeout, 0, s.hwerr⟩
      trace := s.trace ++ [.ret ⟨.noDataTimeout, 0, s.hwerr⟩] })

/-- What READ leaves unchanged in its steps that store nothing (spec/10_state.md R21, R22, spec/41_read.md R138). That the
clock's steps leave the reference peripheral's registers alone is the model's choice (log entry 19). -/
def Obligations.ReadFrame : Prop :=
  ∀ (s t : State) (n : Nat) (wait : Bool), exec (.read n wait) s = .next t → s.st ≠ .rStore →
    t.cfg = s.cfg ∧ t.prepared = s.prepared ∧ t.x.cause = s.x.cause ∧ t.env.kind = s.env.kind ∧
    t.env.clkPrepared = s.env.clkPrepared ∧
    (s.st ≠ .rRdcr → t.x.crSaved = s.x.crSaved) ∧
    (s.st ≠ .rRdsr → s.st ≠ .rPoll → t.x.sr = s.x.sr ∧ t.x.tmo = s.x.tmo) ∧
    (s.st ≠ .rRddr → t.x.word = s.x.word) ∧
    (s.st ≠ .idle → t.x.rem = s.x.rem ∧ t.x.cnt = s.x.cnt ∧ t.x.wait = s.x.wait ∧ t.pending = s.pending ∧
      t.buf.len = s.buf.len ∧ ∀ a, readByte t.buf.bytes a = readByte s.buf.bytes a) ∧
    (s.st = .idle → t.buf.len = n ∧ ∀ a, a < n → readByte t.buf.bytes a = readByte (presentedBytes s) a) ∧
    (s.st ≠ .idle → s.st ≠ .rHwerr → t.hwerr = s.hwerr) ∧
    (s.st ≠ .rRet → t.response = s.response) ∧
    (s.st ≠ .rClken → s.st ≠ .rClkdis → t.env.clkEnabled = s.env.clkEnabled) ∧
    (s.st ≠ .rRdcr → s.st ≠ .rWrcr → s.st ≠ .rRdsr → s.st ≠ .rPoll → s.st ≠ .rRddr → s.st ≠ .rRestore →
      t.env.win = s.env.win)

/-- What READ's storing step leaves unchanged (spec/41_read.md R133): the bytes outside the four at `cnt`. -/
def Obligations.ReadStoreFrame : Prop :=
  ∀ (s t : State) (n : Nat) (wait : Bool), exec (.read n wait) s = .next t → s.st = .rStore →
    t.cfg = s.cfg ∧ t.prepared = s.prepared ∧ t.hwerr = s.hwerr ∧ t.response = s.response ∧ t.env = s.env ∧
    t.pending = s.pending ∧ t.x.crSaved = s.x.crSaved ∧ t.x.sr = s.x.sr ∧ t.x.word = s.x.word ∧ t.x.tmo = s.x.tmo ∧
    t.x.wait = s.x.wait ∧ t.x.cause = s.x.cause ∧ t.buf.len = s.buf.len ∧
    ∀ a, a < s.x.cnt.toNat ∨ s.x.cnt.toNat + 4 ≤ a → readByte t.buf.bytes a = readByte s.buf.bytes a

/-- The transition table and the pseudocode of READ describe the same machine (spec/41_read.md R120, R138), within the
step bound of R140. -/
def Obligations.ReadStepsMatchPseudocode : Prop :=
  ∀ (s : State) (n : Nat) (wait : Bool), Presents s (.read n wait) → s.cfg.Ok →
    ∃ k, 1 ≤ k ∧ k ≤ (if n < 4 then 2 else 7 + n / 4 * (s.cfg.tPoll + 3)) ∧ run k s = readCall n wait s

/-- Every READ call ends within the step bound, its trace has the form of the grammar, and it reads the status register
at most `1 + T_POLL` times per pass, once with `wait == 0` (spec/41_read.md R139, R140). -/
def Obligations.ReadCallHasTraceOfGrammar : Prop :=
  ∀ (s : State) (n : Nat) (wait : Bool), Presents s (.read n wait) → s.prepared = true → s.cfg.Ok →
    ∃ k t tr, k ≤ (if n < 4 then 2 else 7 + n / 4 * (s.cfg.tPoll + 3)) ∧ CallEnds k s t ∧
      t.trace = s.trace ++ tr ∧ ReadTrace s.cfg.tPoll s.cfg.byteOrder n wait tr ∧
      countSr tr ≤ n / 4 * (1 + s.cfg.tPoll) ∧ (wait = false → countSr tr ≤ n / 4)

/-- Every trace of the grammar is the trace of a READ call, for some answers of the environment (spec/41_read.md
R139). -/
def Obligations.EveryTraceOfGrammarIsARead : Prop :=
  ∀ (budget : Nat) (o : ByteOrder) (n : Nat) (wait : Bool) (tr : List Event), 1 ≤ budget → n < 2 ^ 29 →
    ReadTrace budget o n wait tr →
    ∃ s k t, s.cfg.tPoll = budget ∧ s.cfg.byteOrder = o ∧ s.prepared = true ∧ MachineInv s ∧ Presents s (.read n wait) ∧
      CallEnds k s t ∧ t.trace = s.trace ++ tr

/-- Always ready: READ fills `floor(n/4)` words, in the order they were read, and succeeds; the trailing bytes stay as
the host left them (spec/41_read.md R141 b, R137 c, spec/20_memory.md R73, spec/10_state.md R36). -/
def Obligations.AlwaysReadyReadFillsTheBuffer : Prop :=
  ∀ (s : State) (n : Nat) (wait : Bool) (ws restS restD : List Word),
    Presents s (.read n wait) → s.prepared = true → s.cfg.Ok → s.env.kind = .drawn → 4 ≤ n → ws.length = n / 4 →
    s.env.srAnswers = List.replicate (n / 4) 0x00000001 ++ restS → s.env.drAnswers = ws ++ restD →
    ∃ t, CallEnds (7 + 3 * (n / 4)) s t ∧ t.response = some ⟨.ok, BitVec.ofNat 29 (4 * (n / 4)), false⟩ ∧
      t.buf.len = n ∧
      (∀ j k, k < 4 → ∀ w, ws[j]? = some w → readByte t.buf.bytes (4 * j + k) = some (byteAt s.cfg.byteOrder w k)) ∧
      (∀ a, 4 * (n / 4) ≤ a → a < n → readByte t.buf.bytes a = readByte (presentedBytes s) a)

/-- Never ready with `wait`: exactly `1 + T_POLL` status reads, then `NoDataTimeout` and no byte written
(spec/41_read.md R140, R141 c). -/
def Obligations.NeverReadyReadTimesOut : Prop :=
  ∀ (s : State) (n : Nat) (rest : List Word),
    Presents s (.read n true) → s.prepared = true → s.cfg.Ok → s.env.kind = .drawn → 4 ≤ n →
    s.env.srAnswers = List.replicate (1 + s.cfg.tPoll) 0x00000000 ++ rest →
    ∃ t, CallEnds (8 + s.cfg.tPoll) s t ∧ t.response = some ⟨.noDataTimeout, 0, false⟩ ∧ t.env.srAnswers = rest ∧
      ∀ a, a < n → readByte t.buf.bytes a = readByte (presentedBytes s) a

/-- An error bit after `m` words stops the call without discarding them: the response counts them, their bytes are in
the buffer in the order they were read, and the bytes above are as the host left them (spec/41_read.md R141 e, R131, R136,
spec/20_memory.md R64, R73, spec/10_state.md R36). -/
def Obligations.ErrorKeepsTheWordsCaptured : Prop :=
  ∀ (s : State) (n m : Nat) (wait : Bool) (e : Word) (rest : List Word),
    Presents s (.read n wait) → s.prepared = true → s.cfg.Ok → s.env.kind = .drawn → m < n / 4 →
    e &&& 0x00000060 ≠ 0 → s.env.srAnswers = List.replicate m 0x00000001 ++ e :: rest →
    ∃ t, CallEnds (9 + 3 * m) s t ∧ t.env.srAnswers = rest ∧
      t.response = some ⟨if m = 0 ∧ wait = true then .noDataTimeout else .ok, BitVec.ofNat 29 (4 * m), true⟩ ∧
      t.buf.len = n ∧
      (∀ ws restD, ws.length = m → s.env.drAnswers = ws ++ restD → t.env.drAnswers = restD ∧
        ∀ j k, k < 4 → ∀ w, ws[j]? = some w → readByte t.buf.bytes (4 * j + k) = some (byteAt s.cfg.byteOrder w k)) ∧
      (∀ a, 4 * m ≤ a → a < n → readByte t.buf.bytes a = readByte (presentedBytes s) a)

/-- A non-blocking READ stops at the first zero status, with the `m` words it has, in the buffer in the order they were
read: not an error (spec/41_read.md R141 d, spec/60_exceptions.md R178, spec/20_memory.md R64, R73, spec/10_state.md
R36). -/
def Obligations.NonBlockingReadStopsEmpty : Prop :=
  ∀ (s : State) (n m : Nat) (rest : List Word),
    Presents s (.read n false) → s.prepared = true → s.cfg.Ok → s.env.kind = .drawn → m < n / 4 →
    s.env.srAnswers = List.replicate m 0x00000001 ++ 0x00000000 :: rest →
    ∃ t, CallEnds (8 + 3 * m) s t ∧ t.env.srAnswers = rest ∧
      t.response = some ⟨.ok, BitVec.ofNat 29 (4 * m), false⟩ ∧
      t.buf.len = n ∧
      (∀ ws restD, ws.length = m → s.env.drAnswers = ws ++ restD → t.env.drAnswers = restD ∧
        ∀ j k, k < 4 → ∀ w, ws[j]? = some w → readByte t.buf.bytes (4 * j + k) = some (byteAt s.cfg.byteOrder w k)) ∧
      (∀ a, 4 * m ≤ a → a < n → readByte t.buf.bytes a = readByte (presentedBytes s) a)

/-! ### CLEANUP -/

/-- `Accept` of CLEANUP (spec/30_encoding.md R93). -/
def Obligations.CleanupIsAccepted : Prop :=
  ∀ s : State, s.st = .idle → s.prepared = true →
    exec .cleanup s = .next { s with
      st := .cUnprep, hwerr := false, pending := s.pending.tail, trace := s.trace ++ [.accept .cleanup] }

/-- `S_C_UNPREP` (spec/42_cleanup.md R161). -/
def Obligations.CleanupReleasesTheClock : Prop :=
  ∀ s : State, s.st = .cUnprep →
    exec .cleanup s = .next { s with
      st := .cRet
      prepared := false
      env := { s.env with clkPrepared := false }
      trace := s.trace ++ [.clkUnprepare] }

/-- `S_C_RET`; after it INIT is in contract again and READ and CLEANUP are not, since `prepared` is clear
(spec/42_cleanup.md R162). -/
def Obligations.CleanupReturnsOk : Prop :=
  ∀ s : State, s.st = .cRet →
    exec .cleanup s = .next { s with
      st := .idle, response := some ⟨.ok, 0, false⟩, trace := s.trace ++ [.ret ⟨.ok, 0, false⟩] } ∧
    responseWord ⟨.ok, 0, false⟩ = 0x00000000 ∧ (MachineInv s → s.prepared = false)

/-- What CLEANUP leaves unchanged: "No register side effects beyond clock release" (spec/42_cleanup.md R160, R164 c).
That the clock's steps leave the reference peripheral's registers alone is the model's choice (log entry 19). -/
def Obligations.CleanupFrame : Prop :=
  ∀ s t : State, exec .cleanup s = .next t →
    t.cfg = s.cfg ∧ t.x = s.x ∧ t.buf.len = s.buf.len ∧
    (∀ a, readByte t.buf.bytes a = readByte s.buf.bytes a) ∧
    (s.st ≠ .idle → t.hwerr = s.hwerr ∧ t.pending = s.pending) ∧
    (s.st ≠ .cUnprep → t.prepared = s.prepared ∧ t.env = s.env) ∧
    (s.st = .cUnprep → t.env = { s.env with clkPrepared := false }) ∧
    (s.st ≠ .cRet → t.response = s.response)

/-- The trace of one CLEANUP call (spec/42_cleanup.md R163), which is also its pseudocode (R160). -/
def Obligations.CleanupCallTrace : Prop :=
  ∀ s : State, Presents s .cleanup → s.prepared = true →
    ∃ t, CallEnds 3 s t ∧ cleanupCall s = .next t ∧ t.prepared = false ∧
      t.trace = s.trace ++ [.accept .cleanup, .clkUnprepare, .ret ⟨.ok, 0, false⟩]

/-! ### The environment -/

/-- In the trusted environment an answer is whatever the environment chooses: the script's next word, any word
(spec/10_state.md R47, spec/00_scope.md R13); so is the answer to `ClkPrepare`. -/
def Obligations.AnswersAreTheEnvironmentsChoice : Prop :=
  ∀ e : Env,
    (∀ v rest, e.kind = .drawn → e.crAnswers = v :: rest →
      (envRead e .cr).1 = v ∧ (envRead e .cr).2.crAnswers = rest) ∧
    (∀ v rest, e.kind = .drawn → e.srAnswers = v :: rest →
      (envRead e .sr).1 = v ∧ (envRead e .sr).2.srAnswers = rest) ∧
    (∀ v rest, e.kind = .drawn → e.drAnswers = v :: rest →
      (envRead e .dr).1 = v ∧ (envRead e .dr).2.drAnswers = rest) ∧
    (∀ a rest, e.prepAnswers = a :: rest → drawPrep e = a)

/-- The reference peripheral: a write of SR clears an error bit by writing 0 and touches no other bit; a read of DR takes
the completed word and clears data-ready; a word is completed only while the generator is active (spec/10_state.md R40,
R42, R44, R47). -/
def Obligations.ReferencePeripheralActs : Prop :=
  (∀ (old v : Word) (i : Nat), i < 32 →
    (srAfterWrite old v).getLsbD i =
      if i = 5 ∨ i = 6 then old.getLsbD i && v.getLsbD i else old.getLsbD i) ∧
  (∀ e : Env, e.win.sr.getLsbD 0 = true →
    (refRead e .dr).1 = e.win.dr ∧
    ∀ i, (refRead e .dr).2.win.sr.getLsbD i = if i = 0 then false else e.win.sr.getLsbD i) ∧
  (∀ (v : Word) (w w' : Window), periphAct (.complete v) w = some w' →
    w.cr.getLsbD 2 = true ∧ w'.dr = v ∧ w'.cr = w.cr ∧
    ∀ i, w'.sr.getLsbD i = if i = 0 then true else w.sr.getLsbD i)

/-- Every run with the reference peripheral satisfies the five environment properties, and from a state that meets the
invariant its unrecognised bits are zero at every transaction (spec/10_state.md R40 to R45, R47, R48). The times of the
peripheral's moves (log entry 5), and that none of them discards a completed word while the generator is idle (log entry
22), are the model's choice: the spec leaves both open. -/
def Obligations.ReferenceRunsMeetTheEnvironmentProperties : Prop :=
  ∀ (k : Nat) (s t : State), s.env.kind = .reference → run k s = .next t →
    (∃ tr, t.trace = s.trace ++ tr ∧ (transactions k s).map Transaction.event = tr.filter onWindow ∧
      EnvCr s.env.win.cr tr ∧ EnvErr (s.env.win.sr &&& maskErr) tr) ∧
    EnvDrdy s.env.win (transactions k s) ∧ EnvSrw (transactions k s) ∧ EnvSole s.env.win (transactions k s) ∧
    (MachineInv s → ∀ x ∈ transactions k s, NamedBitsOnly x.found ∧ NamedBitsOnly x.left)

/-- INIT with the reference peripheral leaves both error bits of SR clear (spec/40_init.md R118). -/
def Obligations.InitLeavesReferenceErrorsClear : Prop :=
  ∀ s : State, s.st = .iWrsr → s.cfg.Placed → s.env.kind = .reference →
    ∃ t, exec .init s = .next t ∧ t.env.win.sr &&& 0x00000060 = 0 ∧
      ∀ i, i < 32 → i ≠ 5 → i ≠ 6 → t.env.win.sr.getLsbD i = (periphTurn s.env).win.sr.getLsbD i

/-- The round trip of CR: with a CR that stores what is written, `CR_after == CR_before` (spec/10_state.md R45,
spec/41_read.md R134). -/
def Obligations.ReadRestoresReferenceControl : Prop :=
  ∀ (s : State) (n : Nat) (wait : Bool), Presents s (.read n wait) → s.prepared = true → s.cfg.Ok →
    s.env.kind = .reference → ∃ k t, CallEnds k s t ∧ t.env.win.cr = s.env.win.cr

/-- No working register and no `hwerr` carries information from one call to the next: two idle machines that differ in
them only are not told apart by any run (spec/10_state.md R23). -/
def Obligations.WorkingRegistersCarryNothingOver : Prop :=
  ∀ (k : Nat) (s : State) (x : Regs) (h : Bool), s.st = .idle →
    seen (run k s) = seen (run k { s with x := x, hwerr := h })
end

