-- ==== Sys2Proof/Laws/Memory.lean ====
section
/-! SUPPORT. The buffer's cells: a read gives what was written, a write changes no other index, and every operation
keeps the canonical form. -/

namespace Sys2Proof.Machine

theorem readByte_writeByte_same (m : Memory) (a : Nat) (b : Byte) : readByte (writeByte m a b) a = some b := by
  induction m with
  | nil => simp [writeByte, readByte]
  | cons c t ih =>
    unfold writeByte
    split
    · simp [readByte]
    · split
      · simp [readByte]
      · rename_i h1 h2
        simp [readByte, ih, Ne.symm h2]

theorem readByte_writeByte_other (m : Memory) (a i : Nat) (b : Byte) (h : i ≠ a) :
    readByte (writeByte m a b) i = readByte m i := by
  induction m with
  | nil => simp [writeByte, readByte, Ne.symm h]
  | cons c t ih =>
    unfold writeByte
    split
    · simp [readByte, Ne.symm h]
    · split
      · rename_i h1 h2
        subst h2
        simp [readByte, Ne.symm h]
      · simp [readByte, ih]

theorem mem_writeByte (m : Memory) (a : Nat) (b : Byte) (c : Host.Cell) (h : c ∈ writeByte m a b) :
    c = (a, b) ∨ c ∈ m := by
  induction m with
  | nil => simpa [writeByte] using h
  | cons d t ih =>
    unfold writeByte at h
    split at h
    · simpa using h
    · split at h
      · rcases List.mem_cons.1 h with h | h
        · exact .inl h
        · exact .inr (List.mem_cons_of_mem _ h)
      · rcases List.mem_cons.1 h with h | h
        · exact .inr (h ▸ List.mem_cons_self)
        · exact (ih h).imp id (List.mem_cons_of_mem _)

/-- A write keeps the canonical form. -/
theorem writeByte_wf (m : Memory) (a : Nat) (b : Byte) (h : Memory.wf m) : Memory.wf (writeByte m a b) := by
  induction m with
  | nil => simp [Memory.wf, writeByte]
  | cons c t ih =>
    obtain ⟨hc, ht⟩ := List.pairwise_cons.1 h
    unfold writeByte
    split
    · rename_i hlt
      refine List.pairwise_cons.2 ⟨fun d hd => ?_, h⟩
      rcases List.mem_cons.1 hd with rfl | hd
      · exact hlt
      · exact Nat.lt_trans hlt (hc d hd)
    · split
      · rename_i heq
        exact List.pairwise_cons.2 ⟨fun d hd => heq ▸ hc d hd, ht⟩
      · rename_i hnlt hne
        refine List.pairwise_cons.2 ⟨fun d hd => ?_, ih ht⟩
        rcases mem_writeByte t a b d hd with rfl | hd
        · show c.1 < a
          omega
        · exact hc d hd

/-- So does the write of a word. -/
theorem writeWord_wf (o : ByteOrder) (m : Memory) (i : Nat) (v : Word) (h : Memory.wf m) :
    Memory.wf (writeWord o m i v) := by
  unfold writeWord
  exact writeByte_wf _ _ _ (writeByte_wf _ _ _ (writeByte_wf _ _ _ (writeByte_wf _ _ _ h)))

theorem mem_writeWord (o : ByteOrder) (m : Memory) (i : Nat) (v : Word) (c : Host.Cell)
    (h : c ∈ writeWord o m i v) : c.1 < i + 4 ∨ c ∈ m := by
  unfold writeWord at h
  rcases mem_writeByte _ _ _ _ h with rfl | h
  · exact .inl (by simp)
  rcases mem_writeByte _ _ _ _ h with rfl | h
  · exact .inl (by simp)
  rcases mem_writeByte _ _ _ _ h with rfl | h
  · exact .inl (by simp)
  rcases mem_writeByte _ _ _ _ h with rfl | h
  · exact .inl (by simp)
  exact .inr h

/-- The four bytes of a written word (spec/20_memory.md R64). -/
theorem readByte_writeWord_inside (o : ByteOrder) (m : Memory) (i k : Nat) (v : Word) (h : k < 4) :
    readByte (writeWord o m i v) (i + k) = some (byteAt o v k) := by
  have hk : k = 0 ∨ k = 1 ∨ k = 2 ∨ k = 3 := by omega
  unfold writeWord
  rcases hk with rfl | rfl | rfl | rfl
  · rw [readByte_writeByte_other _ _ _ _ (by omega), readByte_writeByte_other _ _ _ _ (by omega),
      readByte_writeByte_other _ _ _ _ (by omega), Nat.add_zero, readByte_writeByte_same]
  · rw [readByte_writeByte_other _ _ _ _ (by omega), readByte_writeByte_other _ _ _ _ (by omega),
      readByte_writeByte_same]
  · rw [readByte_writeByte_other _ _ _ _ (by omega), readByte_writeByte_same]
  · rw [readByte_writeByte_same]

/-- Every other index reads as before. -/
theorem readByte_writeWord_outside (o : ByteOrder) (m : Memory) (i a : Nat) (v : Word) (h : a < i ∨ i + 4 ≤ a) :
    readByte (writeWord o m i v) a = readByte m a := by
  unfold writeWord
  rw [readByte_writeByte_other _ _ _ _ (by omega), readByte_writeByte_other _ _ _ _ (by omega),
    readByte_writeByte_other _ _ _ _ (by omega), readByte_writeByte_other _ _ _ _ (by omega)]

/-- The buffer a host brings is in canonical form if the host's cells are, and every cell lies in it. -/
theorem hostBuffer_wf (n : Nat) (m : Memory) (h : Memory.wf m) :
    Memory.wf (hostBuffer n m).bytes ∧ ∀ c ∈ (hostBuffer n m).bytes, c.1 < n := by
  refine ⟨List.Pairwise.filter _ h, fun c hc => ?_⟩
  simpa using (List.mem_filter.1 hc).2

/-- Cutting the host's cells to the buffer changes no byte of the buffer. -/
theorem readByte_filter (m : Memory) (n a : Nat) (h : a < n) :
    readByte (m.filter (fun c => c.1 < n)) a = readByte m a := by
  induction m with
  | nil => rfl
  | cons c t ih =>
    by_cases hc : c.1 < n
    · simp only [List.filter, hc, decide_true, readByte]
      split <;> [rfl; exact ih]
    · have hne : c.1 ≠ a := by omega
      simp only [List.filter, hc, decide_false, readByte, if_neg hne]
      exact ih

/-- The buffer at construction is in canonical form. -/
theorem reset_buf_wf : Memory.wf State.reset.buf.bytes := List.Pairwise.nil

end Sys2Proof.Machine
end

