-- ==== Sys2Proof/Laws/State.lean ====
section
/-! SUPPORT. What each update of the state leaves in each field: one lemma per field and update, true by rfl. -/

namespace Sys2Proof.Machine

/-! ### an event appended -/

@[simp] theorem emit_cfg (e : Event) (s : State) : (emit e s).cfg = s.cfg := rfl
@[simp] theorem emit_st (e : Event) (s : State) : (emit e s).st = s.st := rfl
@[simp] theorem emit_x (e : Event) (s : State) : (emit e s).x = s.x := rfl
@[simp] theorem emit_hwerr (e : Event) (s : State) : (emit e s).hwerr = s.hwerr := rfl
@[simp] theorem emit_prepared (e : Event) (s : State) : (emit e s).prepared = s.prepared := rfl
@[simp] theorem emit_response (e : Event) (s : State) : (emit e s).response = s.response := rfl
@[simp] theorem emit_buf (e : Event) (s : State) : (emit e s).buf = s.buf := rfl
@[simp] theorem emit_env (e : Event) (s : State) : (emit e s).env = s.env := rfl
@[simp] theorem emit_pending (e : Event) (s : State) : (emit e s).pending = s.pending := rfl
@[simp] theorem emit_trace (e : Event) (s : State) : (emit e s).trace = s.trace ++ [e] := rfl

/-! ### a jump -/

@[simp] theorem goto_cfg (t : Fsm) (s : State) : (goto t s).cfg = s.cfg := rfl
@[simp] theorem goto_st (t : Fsm) (s : State) : (goto t s).st = t := rfl
@[simp] theorem goto_x (t : Fsm) (s : State) : (goto t s).x = s.x := rfl
@[simp] theorem goto_hwerr (t : Fsm) (s : State) : (goto t s).hwerr = s.hwerr := rfl
@[simp] theorem goto_prepared (t : Fsm) (s : State) : (goto t s).prepared = s.prepared := rfl
@[simp] theorem goto_response (t : Fsm) (s : State) : (goto t s).response = s.response := rfl
@[simp] theorem goto_buf (t : Fsm) (s : State) : (goto t s).buf = s.buf := rfl
@[simp] theorem goto_env (t : Fsm) (s : State) : (goto t s).env = s.env := rfl
@[simp] theorem goto_pending (t : Fsm) (s : State) : (goto t s).pending = s.pending := rfl
@[simp] theorem goto_trace (t : Fsm) (s : State) : (goto t s).trace = s.trace := rfl

/-! ### the shared part of Accept -/

@[simp] theorem accept_cfg (i : Instr) (s : State) : (accept i s).cfg = s.cfg := rfl
@[simp] theorem accept_st (i : Instr) (s : State) : (accept i s).st = s.st := rfl
@[simp] theorem accept_x (i : Instr) (s : State) : (accept i s).x = s.x := rfl
@[simp] theorem accept_hwerr (i : Instr) (s : State) : (accept i s).hwerr = false := rfl
@[simp] theorem accept_prepared (i : Instr) (s : State) : (accept i s).prepared = s.prepared := rfl
@[simp] theorem accept_response (i : Instr) (s : State) : (accept i s).response = s.response := rfl
@[simp] theorem accept_buf (i : Instr) (s : State) : (accept i s).buf = s.buf := rfl
@[simp] theorem accept_env (i : Instr) (s : State) : (accept i s).env = s.env := rfl
@[simp] theorem accept_pending (i : Instr) (s : State) : (accept i s).pending = s.pending.tail := rfl
@[simp] theorem accept_trace (i : Instr) (s : State) : (accept i s).trace = s.trace ++ [.accept i] := rfl

/-! ### READ's latched operands -/

@[simp] theorem latchOperands_cfg (n : Nat) (w : Bool) (s : State) : (latchOperands n w s).cfg = s.cfg := rfl
@[simp] theorem latchOperands_st (n : Nat) (w : Bool) (s : State) : (latchOperands n w s).st = s.st := rfl
@[simp] theorem latchOperands_x (n : Nat) (w : Bool) (s : State) :
    (latchOperands n w s).x = { s.x with wait := w, rem := BitVec.ofNat 29 n, cnt := 0 } :=
  rfl
@[simp] theorem latchOperands_hwerr (n : Nat) (w : Bool) (s : State) : (latchOperands n w s).hwerr = s.hwerr := rfl
@[simp] theorem latchOperands_prepared (n : Nat) (w : Bool) (s : State) :
    (latchOperands n w s).prepared = s.prepared :=
  rfl
@[simp] theorem latchOperands_response (n : Nat) (w : Bool) (s : State) :
    (latchOperands n w s).response = s.response :=
  rfl
@[simp] theorem latchOperands_buf (n : Nat) (w : Bool) (s : State) : (latchOperands n w s).buf = s.buf := rfl
@[simp] theorem latchOperands_env (n : Nat) (w : Bool) (s : State) : (latchOperands n w s).env = s.env := rfl
@[simp] theorem latchOperands_pending (n : Nat) (w : Bool) (s : State) :
    (latchOperands n w s).pending = s.pending :=
  rfl
@[simp] theorem latchOperands_trace (n : Nat) (w : Bool) (s : State) : (latchOperands n w s).trace = s.trace := rfl

/-! ### ClkPrepare -/

@[simp] theorem clkPrepare_cfg (s : State) : ((clkPrepare s).2).cfg = s.cfg := rfl
@[simp] theorem clkPrepare_st (s : State) : ((clkPrepare s).2).st = s.st := rfl
@[simp] theorem clkPrepare_x (s : State) : ((clkPrepare s).2).x = s.x := rfl
@[simp] theorem clkPrepare_hwerr (s : State) : ((clkPrepare s).2).hwerr = s.hwerr := rfl
@[simp] theorem clkPrepare_prepared (s : State) : ((clkPrepare s).2).prepared = s.prepared := rfl
@[simp] theorem clkPrepare_response (s : State) : ((clkPrepare s).2).response = s.response := rfl
@[simp] theorem clkPrepare_buf (s : State) : ((clkPrepare s).2).buf = s.buf := rfl
@[simp] theorem clkPrepare_env (s : State) : ((clkPrepare s).2).env = { s.env with
    prepAnswers := s.env.prepAnswers.tail
    draws := s.env.draws + 1
    clkPrepared := if drawPrep s.env = .ok then true else s.env.clkPrepared } :=
  rfl
@[simp] theorem clkPrepare_pending (s : State) : ((clkPrepare s).2).pending = s.pending := rfl
@[simp] theorem clkPrepare_trace (s : State) :
    ((clkPrepare s).2).trace = s.trace ++ [.clkPrepare (drawPrep s.env)] :=
  rfl

/-! ### ClkUnprepare -/

@[simp] theorem clkUnprepare_cfg (s : State) : (clkUnprepare s).cfg = s.cfg := rfl
@[simp] theorem clkUnprepare_st (s : State) : (clkUnprepare s).st = s.st := rfl
@[simp] theorem clkUnprepare_x (s : State) : (clkUnprepare s).x = s.x := rfl
@[simp] theorem clkUnprepare_hwerr (s : State) : (clkUnprepare s).hwerr = s.hwerr := rfl
@[simp] theorem clkUnprepare_prepared (s : State) : (clkUnprepare s).prepared = s.prepared := rfl
@[simp] theorem clkUnprepare_response (s : State) : (clkUnprepare s).response = s.response := rfl
@[simp] theorem clkUnprepare_buf (s : State) : (clkUnprepare s).buf = s.buf := rfl
@[simp] theorem clkUnprepare_env (s : State) : (clkUnprepare s).env = { s.env with clkPrepared := false } := rfl
@[simp] theorem clkUnprepare_pending (s : State) : (clkUnprepare s).pending = s.pending := rfl
@[simp] theorem clkUnprepare_trace (s : State) : (clkUnprepare s).trace = s.trace ++ [.clkUnprepare] := rfl

/-! ### ClkEnable -/

@[simp] theorem clkEnable_cfg (s : State) : (clkEnable s).cfg = s.cfg := rfl
@[simp] theorem clkEnable_st (s : State) : (clkEnable s).st = s.st := rfl
@[simp] theorem clkEnable_x (s : State) : (clkEnable s).x = s.x := rfl
@[simp] theorem clkEnable_hwerr (s : State) : (clkEnable s).hwerr = s.hwerr := rfl
@[simp] theorem clkEnable_prepared (s : State) : (clkEnable s).prepared = s.prepared := rfl
@[simp] theorem clkEnable_response (s : State) : (clkEnable s).response = s.response := rfl
@[simp] theorem clkEnable_buf (s : State) : (clkEnable s).buf = s.buf := rfl
@[simp] theorem clkEnable_env (s : State) : (clkEnable s).env = { s.env with clkEnabled := true } := rfl
@[simp] theorem clkEnable_pending (s : State) : (clkEnable s).pending = s.pending := rfl
@[simp] theorem clkEnable_trace (s : State) : (clkEnable s).trace = s.trace ++ [.clkEnable] := rfl

/-! ### ClkDisable -/

@[simp] theorem clkDisable_cfg (s : State) : (clkDisable s).cfg = s.cfg := rfl
@[simp] theorem clkDisable_st (s : State) : (clkDisable s).st = s.st := rfl
@[simp] theorem clkDisable_x (s : State) : (clkDisable s).x = s.x := rfl
@[simp] theorem clkDisable_hwerr (s : State) : (clkDisable s).hwerr = s.hwerr := rfl
@[simp] theorem clkDisable_prepared (s : State) : (clkDisable s).prepared = s.prepared := rfl
@[simp] theorem clkDisable_response (s : State) : (clkDisable s).response = s.response := rfl
@[simp] theorem clkDisable_buf (s : State) : (clkDisable s).buf = s.buf := rfl
@[simp] theorem clkDisable_env (s : State) : (clkDisable s).env = { s.env with clkEnabled := false } := rfl
@[simp] theorem clkDisable_pending (s : State) : (clkDisable s).pending = s.pending := rfl
@[simp] theorem clkDisable_trace (s : State) : (clkDisable s).trace = s.trace ++ [.clkDisable] := rfl

/-! ### Return -/

@[simp] theorem ret_cfg (r : Response) (s : State) : (ret r s).cfg = s.cfg := rfl
@[simp] theorem ret_st (r : Response) (s : State) : (ret r s).st = .idle := rfl
@[simp] theorem ret_x (r : Response) (s : State) : (ret r s).x = s.x := rfl
@[simp] theorem ret_hwerr (r : Response) (s : State) : (ret r s).hwerr = s.hwerr := rfl
@[simp] theorem ret_prepared (r : Response) (s : State) : (ret r s).prepared = s.prepared := rfl
@[simp] theorem ret_response (r : Response) (s : State) : (ret r s).response = some r := rfl
@[simp] theorem ret_buf (r : Response) (s : State) : (ret r s).buf = s.buf := rfl
@[simp] theorem ret_env (r : Response) (s : State) : (ret r s).env = s.env := rfl
@[simp] theorem ret_pending (r : Response) (s : State) : (ret r s).pending = s.pending := rfl
@[simp] theorem ret_trace (r : Response) (s : State) : (ret r s).trace = s.trace ++ [.ret r] := rfl

/-! ### HwError -/

@[simp] theorem raiseHardware_cfg (v : Word) (s : State) :
    (raiseOutcome (.hardwareErrorObserved v) s).cfg = s.cfg :=
  rfl
@[simp] theorem raiseHardware_st (v : Word) (s : State) :
    (raiseOutcome (.hardwareErrorObserved v) s).st = s.st :=
  rfl
@[simp] theorem raiseHardware_x (v : Word) (s : State) : (raiseOutcome (.hardwareErrorObserved v) s).x = s.x := rfl
@[simp] theorem raiseHardware_hwerr (v : Word) (s : State) :
    (raiseOutcome (.hardwareErrorObserved v) s).hwerr = true :=
  rfl
@[simp] theorem raiseHardware_prepared (v : Word) (s : State) :
    (raiseOutcome (.hardwareErrorObserved v) s).prepared = s.prepared :=
  rfl
@[simp] theorem raiseHardware_response (v : Word) (s : State) :
    (raiseOutcome (.hardwareErrorObserved v) s).response = s.response :=
  rfl
@[simp] theorem raiseHardware_buf (v : Word) (s : State) :
    (raiseOutcome (.hardwareErrorObserved v) s).buf = s.buf :=
  rfl
@[simp] theorem raiseHardware_env (v : Word) (s : State) :
    (raiseOutcome (.hardwareErrorObserved v) s).env = s.env :=
  rfl
@[simp] theorem raiseHardware_pending (v : Word) (s : State) :
    (raiseOutcome (.hardwareErrorObserved v) s).pending = s.pending :=
  rfl
@[simp] theorem raiseHardware_trace (v : Word) (s : State) :
    (raiseOutcome (.hardwareErrorObserved v) s).trace = s.trace ++ [.hwError v] :=
  rfl

end Sys2Proof.Machine
end

