-- ==== Sys2Proof/Laws/Ops.lean ====
section
/-! SUPPORT. One lemma per shared operation that says everything it can do, and what the environment's answers leave
alone. -/

namespace Sys2Proof.Machine

@[simp] theorem andThen_next {α β : Type} (a : α) (k : α → Host.Outcome β Fault Refusal) :
    andThen (.next a) k = k a := rfl

@[simp] theorem andThen_fault {α β : Type} (r : Fault) (k : α → Host.Outcome β Fault Refusal) :
    andThen (.fault r) k = .fault r := rfl

@[simp] theorem andThen_refused {α β : Type} (r : Refusal) (k : α → Host.Outcome β Fault Refusal) :
    andThen (.refused r) k = .refused r := rfl

/-- A next state of two operations in a row comes from a next state of each. -/
theorem andThen_eq_next {α β : Type} {o : Host.Outcome α Fault Refusal} {k : α → Host.Outcome β Fault Refusal} {b : β} :
    andThen o k = .next b ↔ ∃ a, o = .next a ∧ k a = .next b := by
  cases o <;> simp [andThen]

/-- Two operations in a row, then a third: the grouping does not matter. -/
theorem andThen_assoc {α β γ : Type} (o : Host.Outcome α Fault Refusal) (k : α → Host.Outcome β Fault Refusal)
    (l : β → Host.Outcome γ Fault Refusal) : andThen (andThen o k) l = andThen o fun a => andThen (k a) l := by
  cases o <;> rfl

/-! ### Which register an address names -/

@[simp] theorem regAt_cr (p : Params) : regAt p (effAddr p offCr) = some .cr := by simp [regAt]

@[simp] theorem regAt_sr (p : Params) : regAt p (effAddr p offSr) = some .sr := by
  simp [regAt, effAddr, offCr, offSr]

@[simp] theorem regAt_dr (p : Params) : regAt p (effAddr p offDr) = some .dr := by
  simp [regAt, effAddr, offCr, offSr, offDr]

@[simp] theorem effAddr_sub_base (p : Params) (off : Nat) : effAddr p off - p.base = off := by simp [effAddr]

/-! ### Register transactions -/

/-- The state after a read of a register: the event and the environment's change, nothing else. -/
def afterRead (r : WinReg) (s : State) : State :=
  emit (.regRead r.offset (envRead s.env r).1) { s with env := (envRead s.env r).2 }

/-- The state after a write of a register: the event and the environment's change, nothing else. -/
def afterWrite (r : WinReg) (v : Word) (s : State) : State :=
  emit (.regWrite r.offset v) { s with env := envWrite s.env r v }

theorem memRead_cr (s : State) (h : s.cfg.Placed) :
    memRead (effAddr s.cfg offCr) s = .next ((envRead s.env .cr).1, afterRead .cr s) := by
  unfold memRead; rw [if_pos h]; simp [afterRead, WinReg.offset]

theorem memRead_sr (s : State) (h : s.cfg.Placed) :
    memRead (effAddr s.cfg offSr) s = .next ((envRead s.env .sr).1, afterRead .sr s) := by
  unfold memRead; rw [if_pos h]; simp [afterRead, WinReg.offset]

theorem memRead_dr (s : State) (h : s.cfg.Placed) :
    memRead (effAddr s.cfg offDr) s = .next ((envRead s.env .dr).1, afterRead .dr s) := by
  unfold memRead; rw [if_pos h]; simp [afterRead, WinReg.offset]

theorem memWrite_cr (v : Word) (s : State) (h : s.cfg.Placed) :
    memWrite (effAddr s.cfg offCr) v s = .next (afterWrite .cr v s) := by
  unfold memWrite; rw [if_pos h]; simp [afterWrite, WinReg.offset]

theorem memWrite_sr (v : Word) (s : State) (h : s.cfg.Placed) :
    memWrite (effAddr s.cfg offSr) v s = .next (afterWrite .sr v s) := by
  unfold memWrite; rw [if_pos h]; simp [afterWrite, WinReg.offset]

/-- A window that is not placed refuses every access. -/
theorem memRead_misplaced (addr : Nat) (s : State) (h : ¬ s.cfg.Placed) :
    memRead addr s = .refused .windowMisplaced := by
  unfold memRead; rw [if_neg h]

theorem memWrite_misplaced (addr : Nat) (v : Word) (s : State) (h : ¬ s.cfg.Placed) :
    memWrite addr v s = .refused .windowMisplaced := by
  unfold memWrite; rw [if_neg h]

/-- Everything a read can do: if it goes on, it answered for a register of the window. -/
theorem memRead_next {addr : Nat} {s : State} {p : Word × State} (h : memRead addr s = .next p) :
    s.cfg.Placed ∧ ∃ r, regAt s.cfg addr = some r ∧ p.1 = (envRead s.env r).1 ∧
      p.2 = emit (.regRead (addr - s.cfg.base) (envRead s.env r).1) { s with env := (envRead s.env r).2 } := by
  unfold memRead at h
  split at h
  · rename_i hp
    split at h
    · rename_i r hr
      cases h
      exact ⟨hp, r, hr, rfl, rfl⟩
    · cases h
  · cases h

/-- Everything a write can do: if it goes on, it wrote CR or SR. -/
theorem memWrite_next {addr : Nat} {v : Word} {s t : State} (h : memWrite addr v s = .next t) :
    s.cfg.Placed ∧ ∃ r, regAt s.cfg addr = some r ∧ r ≠ .dr ∧
      t = emit (.regWrite (addr - s.cfg.base) v) { s with env := envWrite s.env r v } := by
  unfold memWrite at h
  split at h
  · rename_i hp
    split at h
    · rename_i hr
      cases h
      exact ⟨hp, .cr, hr, by decide, rfl⟩
    · rename_i hr
      cases h
      exact ⟨hp, .sr, hr, by decide, rfl⟩
    · cases h
    · cases h
  · cases h

/-- Everything a buffer write can do: if it goes on, the four bytes lie in the buffer. -/
theorem bufWrite_next {i : Nat} {v : Word} {s t : State} (h : bufWrite i v s = .next t) :
    i + 4 ≤ s.buf.len ∧
      t = emit (.bufWrite i (byteAt s.cfg.byteOrder v 0) (byteAt s.cfg.byteOrder v 1) (byteAt s.cfg.byteOrder v 2)
          (byteAt s.cfg.byteOrder v 3))
        { s with buf := { s.buf with bytes := writeWord s.cfg.byteOrder s.buf.bytes i v } } := by
  unfold bufWrite at h
  split at h
  · rename_i hi
    cases h
    exact ⟨hi, rfl⟩
  · cases h

section Fields
variable (r : WinReg) (v : Word) (s : State)

@[simp] theorem afterRead_cfg : (afterRead r s).cfg = s.cfg := rfl
@[simp] theorem afterRead_st : (afterRead r s).st = s.st := rfl
@[simp] theorem afterRead_x : (afterRead r s).x = s.x := rfl
@[simp] theorem afterRead_hwerr : (afterRead r s).hwerr = s.hwerr := rfl
@[simp] theorem afterRead_prepared : (afterRead r s).prepared = s.prepared := rfl
@[simp] theorem afterRead_response : (afterRead r s).response = s.response := rfl
@[simp] theorem afterRead_buf : (afterRead r s).buf = s.buf := rfl
@[simp] theorem afterRead_env : (afterRead r s).env = (envRead s.env r).2 := rfl
@[simp] theorem afterRead_pending : (afterRead r s).pending = s.pending := rfl
@[simp] theorem afterRead_trace : (afterRead r s).trace = s.trace ++ [.regRead r.offset (envRead s.env r).1] := rfl
@[simp] theorem afterWrite_cfg : (afterWrite r v s).cfg = s.cfg := rfl
@[simp] theorem afterWrite_st : (afterWrite r v s).st = s.st := rfl
@[simp] theorem afterWrite_x : (afterWrite r v s).x = s.x := rfl
@[simp] theorem afterWrite_hwerr : (afterWrite r v s).hwerr = s.hwerr := rfl
@[simp] theorem afterWrite_prepared : (afterWrite r v s).prepared = s.prepared := rfl
@[simp] theorem afterWrite_response : (afterWrite r v s).response = s.response := rfl
@[simp] theorem afterWrite_buf : (afterWrite r v s).buf = s.buf := rfl
@[simp] theorem afterWrite_env : (afterWrite r v s).env = envWrite s.env r v := rfl
@[simp] theorem afterWrite_pending : (afterWrite r v s).pending = s.pending := rfl
@[simp] theorem afterWrite_trace : (afterWrite r v s).trace = s.trace ++ [.regWrite r.offset v] := rfl

end Fields

/-! ### What the environment's answers leave alone -/

theorem refRead_frame (e : Env) (r : WinReg) :
    (refRead e r).2.kind = e.kind ∧ (refRead e r).2.clkPrepared = e.clkPrepared ∧
      (refRead e r).2.clkEnabled = e.clkEnabled := by
  cases r
  · exact ⟨rfl, rfl, rfl⟩
  · exact ⟨rfl, rfl, rfl⟩
  · unfold refRead
    split
    · rename_i h
      simp at h
    · rename_i h
      simp at h
    · split <;> exact ⟨rfl, rfl, rfl⟩

/-- A register read changes neither the kind of environment nor the clock. -/
theorem envRead_frame (e : Env) (r : WinReg) :
    (envRead e r).2.kind = e.kind ∧ (envRead e r).2.clkPrepared = e.clkPrepared ∧
      (envRead e r).2.clkEnabled = e.clkEnabled := by
  unfold envRead
  split
  · cases r <;> exact ⟨rfl, rfl, rfl⟩
  · exact refRead_frame (periphTurn e) r

/-- Neither does a register write. -/
theorem envWrite_frame (e : Env) (r : WinReg) (v : Word) :
    (envWrite e r v).kind = e.kind ∧ (envWrite e r v).clkPrepared = e.clkPrepared ∧
      (envWrite e r v).clkEnabled = e.clkEnabled := by
  unfold envWrite
  split
  · exact ⟨rfl, rfl, rfl⟩
  · cases r <;> exact ⟨rfl, rfl, rfl⟩

@[simp] theorem envRead_kind (e : Env) (r : WinReg) : (envRead e r).2.kind = e.kind := (envRead_frame e r).1
@[simp] theorem envRead_clkPrepared (e : Env) (r : WinReg) : (envRead e r).2.clkPrepared = e.clkPrepared :=
  (envRead_frame e r).2.1
@[simp] theorem envRead_clkEnabled (e : Env) (r : WinReg) : (envRead e r).2.clkEnabled = e.clkEnabled :=
  (envRead_frame e r).2.2
@[simp] theorem envWrite_kind (e : Env) (r : WinReg) (v : Word) : (envWrite e r v).kind = e.kind :=
  (envWrite_frame e r v).1
@[simp] theorem envWrite_clkPrepared (e : Env) (r : WinReg) (v : Word) : (envWrite e r v).clkPrepared = e.clkPrepared :=
  (envWrite_frame e r v).2.1
@[simp] theorem envWrite_clkEnabled (e : Env) (r : WinReg) (v : Word) : (envWrite e r v).clkEnabled = e.clkEnabled :=
  (envWrite_frame e r v).2.2

/-! ### The reference peripheral and CR -/

/-- The peripheral's own moves leave CR alone. -/
theorem runMoves_cr (ms : List Move) (w : Window) : (runMoves ms w).2.cr = w.cr := by
  induction ms generalizing w with
  | nil => rfl
  | cons m t ih =>
    unfold runMoves
    split
    · split
      · rename_i w' h
        rw [ih]
        revert h
        cases m.act <;> simp only [periphAct]
        · split
          · rintro ⟨⟩
            rfl
          · rintro ⟨⟩
        · rintro ⟨⟩
          rfl
        · rintro ⟨⟩
          rfl
      · rfl
    · rfl

/-- A read of any register leaves the reference peripheral's CR alone. -/
theorem envRead_win_cr (e : Env) (r : WinReg) (hk : e.kind = .reference) : (envRead e r).2.win.cr = e.win.cr := by
  simp only [envRead, hk]
  have := runMoves_cr e.moves e.win
  cases r
  · exact this
  · exact this
  · simp only [refRead]
    split <;> exact this

/-- A read of CR gives what the reference peripheral's CR holds. -/
theorem envRead_cr_value (e : Env) (hk : e.kind = .reference) : (envRead e .cr).1 = e.win.cr := by
  simp only [envRead, hk]
  exact runMoves_cr e.moves e.win

/-- A write of CR is stored. -/
theorem envWrite_win_cr (e : Env) (v : Word) (hk : e.kind = .reference) : (envWrite e .cr v).win.cr = v := by
  simp [envWrite, hk, refWrite]

end Sys2Proof.Machine
end

