-- ==== Sys2Proof/Laws/PerInstr.lean ====
section
/-! SUPPORT. Statements about every command as a word, one lemma per constructor. -/

namespace Sys2Proof.Laws.EncodedOp

/-- The `op` field of a command (spec/30_encoding.md R90, R92). -/
def opOf (i : Instr) : BitVec 2 :=
  match i with
  | .init => 0b00
  | .read _ _ => 0b01
  | .cleanup => 0b10

/-- The word of a command carries its `op` in bits 1:0. -/
def Statement (i : Instr) : Prop := opField (encode i) = opOf i

theorem init : Statement .init := by
  show opField (encode .init) = 0b00
  decide

theorem read (n : Nat) (wait : Bool) : Statement (.read n wait) := by
  show opField (encode (.read n wait)) = 0b01
  unfold opField encode
  ext i hi
  have h : i = 0 ∨ i = 1 := by omega
  rcases h with rfl | rfl <;> simp [← BitVec.getLsbD_eq_getElem]

theorem cleanup : Statement .cleanup := by
  show opField (encode .cleanup) = 0b10
  decide

end Sys2Proof.Laws.EncodedOp
end

