-- ==== Sys2Proof/Laws/Step.lean ====
section
/-! SUPPORT. What each FSM step answers, as one equation per step, once the window is placed; and the inversions: all
next states of each command, and of `step`. -/

namespace Sys2Proof.Machine

theorem stepIRdsr_eq (s : State) (h : s.cfg.Placed) :
    stepIRdsr s = .next (goto .iWrsr { afterRead .sr s with x.sr := (envRead s.env .sr).1 }) := by
  simp [stepIRdsr, memRead_sr s h]

theorem stepIWrsr_eq (s : State) (h : s.cfg.Placed) :
    stepIWrsr s = .next (goto .iRet { afterWrite .sr (clearErrors s.x.sr) s with prepared := true }) := by
  simp [stepIWrsr, memWrite_sr _ s h]

theorem stepRRdcr_eq (s : State) (h : s.cfg.Placed) :
    stepRRdcr s = .next (goto .rWrcr { afterRead .cr s with x.crSaved := (envRead s.env .cr).1 }) := by
  simp [stepRRdcr, memRead_cr s h]

theorem stepRWrcr_eq (s : State) (h : s.cfg.Placed) :
    stepRWrcr s = .next (goto .rRdsr (afterWrite .cr (withEnable s.x.crSaved) s)) := by
  simp [stepRWrcr, memWrite_cr _ s h]

theorem stepRRdsr_eq (s : State) (h : s.cfg.Placed) :
    stepRRdsr s = .next (goto (afterFirstRead s.x.wait (envRead s.env .sr).1)
      { afterRead .sr s with
        x.sr := (envRead s.env .sr).1
        x.tmo := if (envRead s.env .sr).1 = 0 ∧ s.x.wait = true then s.cfg.tPoll else s.x.tmo }) := by
  simp [stepRRdsr, memRead_sr s h]

theorem stepRPoll_eq (s : State) (h : s.cfg.Placed) :
    stepRPoll s = .next (goto (afterReRead (s.x.tmo - 1) (envRead s.env .sr).1)
      { afterRead .sr s with x.sr := (envRead s.env .sr).1, x.tmo := s.x.tmo - 1 }) := by
  simp [stepRPoll, memRead_sr s h]

theorem stepRRddr_eq (s : State) (h : s.cfg.Placed) :
    stepRRddr s = .next (goto .rStore { afterRead .dr s with x.word := (envRead s.env .dr).1 }) := by
  simp [stepRRddr, memRead_dr s h]

theorem stepRRestore_eq (s : State) (h : s.cfg.Placed) :
    stepRRestore s = .next (goto .rClkdis (afterWrite .cr s.x.crSaved s)) := by
  simp [stepRRestore, memWrite_cr _ s h]

theorem stepRStore_eq (s : State) (h : s.x.cnt.toNat + 4 ≤ s.buf.len) :
    stepRStore s = .next (goto (afterStore (s.x.rem - 4))
      { emit (.bufWrite s.x.cnt.toNat (byteAt s.cfg.byteOrder s.x.word 0) (byteAt s.cfg.byteOrder s.x.word 1)
          (byteAt s.cfg.byteOrder s.x.word 2) (byteAt s.cfg.byteOrder s.x.word 3)) s with
        x.cnt := s.x.cnt + 4
        x.rem := s.x.rem - 4
        buf := { s.buf with bytes := writeWord s.cfg.byteOrder s.buf.bytes s.x.cnt.toNat s.x.word } }) := by
  simp [stepRStore, bufWrite, h, emit]

/-- Everything a step can be: waiting, or a step of the fetched command. -/
theorem step_eq_next {s t : State} (h : step s = .next t) :
    (fetch s = .waiting ∧ t = s) ∨ ∃ i, fetch s = .command i ∧ exec i s = .next t := by
  unfold step at h
  split at h
  · rename_i hf
    cases h
    exact .inl ⟨hf, rfl⟩
  · rename_i i hf
    exact .inr ⟨i, hf, h⟩
  · cases h

/-! ### Which command a step belongs to -/

theorem family_eq_none {t : Fsm} : family t = none ↔ t = .idle := by
  cases t <;> simp [family]

/-- The fetched command is the presented one in `S_IDLE`, else the one the FSM state belongs to. -/
theorem fetch_command {s : State} {i : Instr} (h : fetch s = .command i) :
    (s.st = .idle ∧ ∃ p rest, s.pending = p :: rest ∧ decode p.word = .ok i) ∨
    (family s.st = some .init ∧ i = .init) ∨
    (family s.st = some .read ∧ i = .read s.buf.len s.x.wait) ∨
    (family s.st = some .cleanup ∧ i = .cleanup) := by
  unfold fetch at h
  split at h
  · rename_i hf
    refine .inl ⟨family_eq_none.1 hf, ?_⟩
    unfold fetchPresented at h
    split at h
    · cases h
    · rename_i p rest hp
      split at h
      · rename_i j hj
        cases h
        exact ⟨p, rest, hp, hj⟩
      · cases h
  · rename_i hf
    cases h
    exact .inr (.inl ⟨hf, rfl⟩)
  · rename_i hf
    cases h
    exact .inr (.inr (.inl ⟨hf, rfl⟩))
  · rename_i hf
    cases h
    exact .inr (.inr (.inr ⟨hf, rfl⟩))

/-- The block waits only in `S_IDLE` with nothing presented. -/
theorem fetch_waiting {s : State} (h : fetch s = .waiting) : s.st = .idle ∧ s.pending = [] := by
  unfold fetch at h
  split at h
  · rename_i hf
    refine ⟨family_eq_none.1 hf, ?_⟩
    unfold fetchPresented at h
    split at h
    · assumption
    · split at h <;> cases h
  all_goals cases h

/-! ### A step that goes on has a placed window, and room in the buffer -/

theorem stepIRdsr_placed {s t : State} (h : stepIRdsr s = .next t) : s.cfg.Placed := by
  by_contra hc
  simp [stepIRdsr, memRead_misplaced _ _ hc] at h

theorem stepIWrsr_placed {s t : State} (h : stepIWrsr s = .next t) : s.cfg.Placed := by
  by_contra hc
  simp [stepIWrsr, memWrite_misplaced _ _ _ hc] at h

theorem stepRRdcr_placed {s t : State} (h : stepRRdcr s = .next t) : s.cfg.Placed := by
  by_contra hc
  simp [stepRRdcr, memRead_misplaced _ _ hc] at h

theorem stepRWrcr_placed {s t : State} (h : stepRWrcr s = .next t) : s.cfg.Placed := by
  by_contra hc
  simp [stepRWrcr, memWrite_misplaced _ _ _ hc] at h

theorem stepRRdsr_placed {s t : State} (h : stepRRdsr s = .next t) : s.cfg.Placed := by
  by_contra hc
  simp [stepRRdsr, memRead_misplaced _ _ hc] at h

theorem stepRPoll_placed {s t : State} (h : stepRPoll s = .next t) : s.cfg.Placed := by
  by_contra hc
  simp [stepRPoll, memRead_misplaced _ _ hc] at h

theorem stepRRddr_placed {s t : State} (h : stepRRddr s = .next t) : s.cfg.Placed := by
  by_contra hc
  simp [stepRRddr, memRead_misplaced _ _ hc] at h

theorem stepRRestore_placed {s t : State} (h : stepRRestore s = .next t) : s.cfg.Placed := by
  by_contra hc
  simp [stepRRestore, memWrite_misplaced _ _ _ hc] at h

theorem stepRStore_room {s t : State} (h : stepRStore s = .next t) : s.x.cnt.toNat + 4 ≤ s.buf.len := by
  obtain ⟨_, hw, _⟩ := andThen_eq_next.1 h
  exact (bufWrite_next hw).1

/-! ### All next states of each command -/

/-- The next states of INIT, one case per FSM step. -/
inductive InitNext (s : State) : State → Prop where
  | accept (h : s.st = .idle) (hp : s.prepared = false) : InitNext s (goto .iPrep (accept .init s))
  | prepOk (h : s.st = .iPrep) (ha : drawPrep s.env = .ok) : InitNext s (goto .iRdsr (clkPrepare s).2)
  | prepFail (h : s.st = .iPrep) (e : Cause) (ha : drawPrep s.env = .fail e) :
      InitNext s (goto .iFail { (clkPrepare s).2 with x.cause := e })
  | fail (h : s.st = .iFail) : InitNext s (ret ⟨.clockUnavailable, s.x.cause, false⟩ s)
  | rdsr (h : s.st = .iRdsr) (hp : s.cfg.Placed) :
      InitNext s (goto .iWrsr { afterRead .sr s with x.sr := (envRead s.env .sr).1 })
  | wrsr (h : s.st = .iWrsr) (hp : s.cfg.Placed) :
      InitNext s (goto .iRet { afterWrite .sr (clearErrors s.x.sr) s with prepared := true })
  | ret (h : s.st = .iRet) : InitNext s (ret ⟨.ok, 0, false⟩ s)

theorem execInit_next {s t : State} (h : execInit s = .next t) : InitNext s t := by
  unfold execInit at h
  split at h <;> rename_i hst
  · unfold stepAcceptInit at h
    split at h
    · cases h
    · rename_i hp
      cases h
      exact .accept hst (by simpa using hp)
  · unfold stepIPrep at h
    split at h
    · rename_i ha
      cases h
      exact .prepOk hst ha
    · rename_i e ha
      cases h
      exact .prepFail hst e ha
  · cases h
    exact .fail hst
  · have hp := stepIRdsr_placed h
    rw [stepIRdsr_eq s hp] at h
    cases h
    exact .rdsr hst hp
  · have hp := stepIWrsr_placed h
    rw [stepIWrsr_eq s hp] at h
    cases h
    exact .wrsr hst hp
  · cases h
    exact .ret hst
  all_goals cases h

/-- The next states of READ, one case per FSM step. -/
inductive ReadNext (n : Nat) (wait : Bool) (s : State) : State → Prop where
  | accept (h : s.st = .idle) (hp : s.prepared = true) : ReadNext n wait s (goto (readEntry n)
      (latchOperands n wait { accept (.read n wait) s with buf := hostBuffer n (presentedBytes s) }))
  | clken (h : s.st = .rClken) : ReadNext n wait s (goto .rRdcr (clkEnable s))
  | rdcr (h : s.st = .rRdcr) (hp : s.cfg.Placed) :
      ReadNext n wait s (goto .rWrcr { afterRead .cr s with x.crSaved := (envRead s.env .cr).1 })
  | wrcr (h : s.st = .rWrcr) (hp : s.cfg.Placed) :
      ReadNext n wait s (goto .rRdsr (afterWrite .cr (withEnable s.x.crSaved) s))
  | rdsr (h : s.st = .rRdsr) (hp : s.cfg.Placed) :
      ReadNext n wait s (goto (afterFirstRead s.x.wait (envRead s.env .sr).1)
        { afterRead .sr s with
          x.sr := (envRead s.env .sr).1
          x.tmo := if (envRead s.env .sr).1 = 0 ∧ s.x.wait = true then s.cfg.tPoll else s.x.tmo })
  | poll (h : s.st = .rPoll) (hp : s.cfg.Placed) :
      ReadNext n wait s (goto (afterReRead (s.x.tmo - 1) (envRead s.env .sr).1)
        { afterRead .sr s with x.sr := (envRead s.env .sr).1, x.tmo := s.x.tmo - 1 })
  | hwerr (h : s.st = .rHwerr) :
      ReadNext n wait s (goto .rRestore (raiseOutcome (.hardwareErrorObserved s.x.sr) s))
  | rddr (h : s.st = .rRddr) (hp : s.cfg.Placed) :
      ReadNext n wait s (goto .rStore { afterRead .dr s with x.word := (envRead s.env .dr).1 })
  | store (h : s.st = .rStore) (hl : s.x.cnt.toNat + 4 ≤ s.buf.len) :
      ReadNext n wait s (goto (afterStore (s.x.rem - 4))
        { emit (.bufWrite s.x.cnt.toNat (byteAt s.cfg.byteOrder s.x.word 0) (byteAt s.cfg.byteOrder s.x.word 1)
            (byteAt s.cfg.byteOrder s.x.word 2) (byteAt s.cfg.byteOrder s.x.word 3)) s with
          x.cnt := s.x.cnt + 4
          x.rem := s.x.rem - 4
          buf := { s.buf with bytes := writeWord s.cfg.byteOrder s.buf.bytes s.x.cnt.toNat s.x.word } })
  | restore (h : s.st = .rRestore) (hp : s.cfg.Placed) :
      ReadNext n wait s (goto .rClkdis (afterWrite .cr s.x.crSaved s))
  | clkdis (h : s.st = .rClkdis) : ReadNext n wait s (goto .rRet (clkDisable s))
  | retTimeout (h : s.st = .rRet) (hc : s.x.cnt = 0) (hw : s.x.wait = true) :
      ReadNext n wait s (ret ⟨.noDataTimeout, 0, s.hwerr⟩ s)
  | retOk (h : s.st = .rRet) (hc : ¬ (s.x.cnt = 0 ∧ s.x.wait = true)) :
      ReadNext n wait s (ret ⟨.ok, s.x.cnt, s.hwerr⟩ s)

theorem execRead_next {n : Nat} {wait : Bool} {s t : State} (h : execRead n wait s = .next t) :
    ReadNext n wait s t := by
  unfold execRead at h
  split at h <;> rename_i hst
  · unfold stepAcceptRead at h
    split at h
    · rename_i hp
      cases h
      exact .accept hst hp
    · cases h
  · cases h
    exact .clken hst
  · have hp := stepRRdcr_placed h
    rw [stepRRdcr_eq s hp] at h
    cases h
    exact .rdcr hst hp
  · have hp := stepRWrcr_placed h
    rw [stepRWrcr_eq s hp] at h
    cases h
    exact .wrcr hst hp
  · have hp := stepRRdsr_placed h
    rw [stepRRdsr_eq s hp] at h
    cases h
    exact .rdsr hst hp
  · have hp := stepRPoll_placed h
    rw [stepRPoll_eq s hp] at h
    cases h
    exact .poll hst hp
  · cases h
    exact .hwerr hst
  · have hp := stepRRddr_placed h
    rw [stepRRddr_eq s hp] at h
    cases h
    exact .rddr hst hp
  · have hl := stepRStore_room h
    rw [stepRStore_eq s hl] at h
    cases h
    exact .store hst hl
  · have hp := stepRRestore_placed h
    rw [stepRRestore_eq s hp] at h
    cases h
    exact .restore hst hp
  · cases h
    exact .clkdis hst
  · unfold stepRRet at h
    split at h
    · rename_i hc
      cases h
      simp [readTimedOut] at hc
      exact .retTimeout hst hc.1 hc.2
    · rename_i hc
      cases h
      exact .retOk hst (by simpa [readTimedOut] using hc)
  all_goals cases h

/-- The next states of CLEANUP, one case per FSM step. -/
inductive CleanupNext (s : State) : State → Prop where
  | accept (h : s.st = .idle) (hp : s.prepared = true) : CleanupNext s (goto .cUnprep (accept .cleanup s))
  | unprep (h : s.st = .cUnprep) : CleanupNext s (goto .cRet { clkUnprepare s with prepared := false })
  | ret (h : s.st = .cRet) : CleanupNext s (ret ⟨.ok, 0, false⟩ s)

theorem execCleanup_next {s t : State} (h : execCleanup s = .next t) : CleanupNext s t := by
  unfold execCleanup at h
  split at h <;> rename_i hst
  · unfold stepAcceptCleanup at h
    split at h
    · rename_i hp
      cases h
      exact .accept hst hp
    · cases h
  · cases h
    exact .unprep hst
  · cases h
    exact .ret hst
  all_goals cases h

/-! ### Where a status word leads -/

theorem nextOf_cases (v : Word) : nextOf v = .rHwerr ∨ nextOf v = .rRestore ∨ nextOf v = .rRddr := by
  unfold nextOf
  split
  · exact .inl rfl
  · split
    · exact .inr (.inl rfl)
    · exact .inr (.inr rfl)

theorem afterFirstRead_cases (wait : Bool) (v : Word) :
    (afterFirstRead wait v = .rPoll ∧ v = 0 ∧ wait = true) ∨
    (afterFirstRead wait v = nextOf v ∧ ¬ (v = 0 ∧ wait = true)) := by
  unfold afterFirstRead
  split
  · rename_i h
    exact .inl ⟨rfl, h⟩
  · rename_i h
    exact .inr ⟨rfl, h⟩

theorem afterReRead_cases (tmo : Nat) (v : Word) :
    (afterReRead tmo v = .rPoll ∧ v = 0 ∧ tmo ≠ 0) ∨ (afterReRead tmo v = nextOf v ∧ ¬ (v = 0 ∧ tmo ≠ 0)) := by
  unfold afterReRead
  split
  · rename_i h
    exact .inl ⟨rfl, h⟩
  · rename_i h
    exact .inr ⟨rfl, h⟩

end Sys2Proof.Machine
end

