-- ==== Sys2Proof/Laws/Runs.lean ====
section
/-! SUPPORT. Runs of several steps: how they are cut and joined, a call as a run of working states that ends in
`S_IDLE`, and the transactions of a run. -/

namespace Sys2Proof.Safety

open Sys2Proof.Machine

theorem run_succ (k : Nat) (s : State) : run (k + 1) s = andThen (step s) (run k) := by
  have hc : core.step s = step s := rfl
  simp only [run, Host.Core.run, hc]
  cases step s <;> rfl

theorem run_one (s : State) : run 1 s = step s := by
  rw [run_succ]
  cases step s <;> rfl

theorem run_add (a b : Nat) (s : State) : run (a + b) s = andThen (run a s) (run b) := by
  induction a generalizing s with
  | zero =>
    rw [Nat.zero_add]
    rfl
  | succ a ih =>
    rw [Nat.add_right_comm, run_succ, run_succ]
    cases step s <;> simp [andThen, ih]

/-- `k` steps, each ending in a working state. -/
def Busy (k : Nat) (s t : State) : Prop :=
  run k s = .next t ∧ ∀ j, 1 ≤ j → j ≤ k → ∃ u, run j s = .next u ∧ u.st ≠ .idle

theorem busy_zero (s : State) : Busy 0 s s := ⟨rfl, fun j h1 h2 => by omega⟩

theorem busy_one {s t : State} (h : step s = .next t) (hn : t.st ≠ .idle) : Busy 1 s t :=
  ⟨by rw [run_one, h], fun j h1 h2 => ⟨t, by rw [show j = 1 by omega, run_one, h], hn⟩⟩

theorem Busy.trans {a b : Nat} {s t u : State} (h1 : Busy a s t) (h2 : Busy b t u) : Busy (a + b) s u := by
  refine ⟨by rw [run_add, h1.1]; exact h2.1, fun j hj hk => ?_⟩
  by_cases h : j ≤ a
  · exact h1.2 j hj h
  · obtain ⟨v, hv, hn⟩ := h2.2 (j - a) (by omega) (by omega)
    refine ⟨v, ?_, hn⟩
    rw [show j = a + (j - a) by omega, run_add, h1.1]
    exact hv

/-- Working steps, then a step to `S_IDLE`: a call. -/
theorem Busy.callEnds {a : Nat} {s t u : State} (h1 : Busy a s t) (h2 : step t = .next u) (hi : u.st = .idle) :
    CallEnds (a + 1) s u := by
  refine ⟨by omega, ?_, hi, fun j hj hk => h1.2 j hj (by omega)⟩
  rw [run_add, h1.1]
  exact (run_one t).trans h2

/-! ### Transactions of the reference peripheral -/

/-- A step's transactions are the window events it appends. -/
theorem transactionOf_append {s t : State} {tr : List Event} (h : t.trace = s.trace ++ tr) :
    transactionOf s t = (tr.filter onWindow).map (fun e => ⟨e, (periphTurn s.env).win, t.env.win⟩) := by
  simp [transactionOf, h]

theorem transactions_next {k : Nat} {s u : State} (h : step s = .next u) :
    transactions (k + 1) s = transactionOf s u ++ transactions k u := by
  simp only [transactions, h]

/-- What the script does before a transaction are moves of the peripheral's own. -/
theorem runMoves_ownMoves (ms : List Move) (w : Window) : OwnMoves w (runMoves ms w).2 := by
  induction ms generalizing w with
  | nil => exact .none w
  | cons m t ih =>
    unfold runMoves
    split
    · split
      · rename_i w' hw
        exact .move _ _ _ _ hw (ih w')
      · exact .none w
    · exact .none w

end Sys2Proof.Safety
end

