-- ==== Sys2Proof/Tests/Slice0.lean ====
section
/-! SUPPORT. Small tests with results taken from the spec's vectors, and one witness for each statement that has
hypotheses: a concrete state or word that meets all of them together. -/

namespace Sys2Proof.Tests

open Sys2Proof.Machine Sys2Proof.Safety

/-! ### Well-formedness -/

/-- 2^29 does not fit the length field (spec/41_read.md R120). -/
theorem test_wellformed_refuses_long_read : ¬ (Instr.read (2 ^ 29) false).WellFormed := by decide

theorem test_wellformed_longest_read : (Instr.read (2 ^ 29 - 1) true).WellFormed := by decide

/-! ### Words written out from spec/30_encoding.md R90 and R92 (spec/95_test_vectors.md section 2.1) -/

/-- op 00, every other bit zero. -/
theorem test_decode_init : decode 0b00000000000000000000000000000000 = .ok .init := by decide

/-- len = 8 in bits 31:3, wait = 1 in bit 2, op 01. -/
theorem test_decode_read : decode 0b00000000000000000000000001000101 = .ok (.read 8 true) := by decide

/-- op 10, every other bit zero. -/
theorem test_decode_cleanup : decode 0b00000000000000000000000000000010 = .ok .cleanup := by decide

/-- The longest length. -/
theorem test_decode_longest : decode 0xFFFFFFFD = .ok (.read 536870911 true) := by decide

theorem test_decode_nowait : decode 0x00000051 = .ok (.read 10 false) := by decide

/-- The rejected words of section 2.1, each by name. -/
theorem test_decode_rejects :
    decode 0x00000003 = .error .reservedOp ∧ decode 0x00000007 = .error .reservedOp ∧
    decode 0xFFFFFFFF = .error .reservedOp ∧ decode 0x00000004 = .error .initBitsNotZero ∧
    decode 0x00000008 = .error .initBitsNotZero ∧ decode 0x00000006 = .error .cleanupBitsNotZero ∧
    decode 0x0000000A = .error .cleanupBitsNotZero := by decide

theorem test_encode :
    encode .init = 0x00000000 ∧ encode (.read 12 true) = 0x00000065 ∧ encode (.read 3 true) = 0x0000001D ∧
    encode .cleanup = 0x00000002 := by decide

/-- The words the opcode table's rows give. -/
theorem test_table_words :
    decodeTableWord 32 0 = some .init ∧ decodeTableWord 32 1 = some (.read 0 false) ∧
    decodeTableWord 32 2 = some .cleanup ∧ decodeTableWord 32 3 = none := by decide

/-- spec/95_test_vectors.md section 2.2. -/
theorem test_response_words :
    responseWord ⟨.ok, 4, true⟩ = 0x00000024 ∧ responseWord ⟨.ok, 536870908, false⟩ = 0xFFFFFFE0 ∧
    responseWord ⟨.noDataTimeout, 0, true⟩ = 0x00000006 ∧ responseWord ⟨.clockUnavailable, 0x16, false⟩ = 0x000000B1 := by
  decide

/-! ### Component tables (spec/95_test_vectors.md sections 3 and 4.1) -/

theorem test_init_written_word :
    clearErrors 0x00000061 = 0x00000001 ∧ clearErrors 0xDEADBEEF = 0xDEADBE8F ∧
    clearErrors 0xFFFFFFFF = 0xFFFFFF9F := by decide

theorem test_read_enable_word :
    withEnable 0x00000008 = 0x0000000C ∧ withEnable 0xFFFFFFFB = 0xFFFFFFFF ∧
    withEnable 0xA5A5A5A1 = 0xA5A5A5A5 := by decide

theorem test_next_of_status :
    nextOf 0x00000000 = .rRestore ∧ nextOf 0x00000002 = .rRddr ∧ nextOf 0xFFFFFF9F = .rRddr ∧
    nextOf 0x00000021 = .rHwerr ∧ nextOf 0x00000040 = .rHwerr ∧ nextOf 0x00000030 = .rHwerr := by decide

theorem test_byte_order :
    (List.range 4).map (byteAt .le 0x11223344) = [0x44, 0x33, 0x22, 0x11] ∧
    (List.range 4).map (byteAt .be 0xDEADBEEF) = [0xDE, 0xAD, 0xBE, 0xEF] := by decide

/-! ### A small state -/

/-- The next state of an outcome, if it is one. -/
def next? (o : Host.Outcome State Fault Refusal) : Option State :=
  match o with
  | .next s => some s
  | .fault _ => none
  | .refused _ => none

/-- `BASE = 0x1000`, `T_POLL = 3`. -/
def demoParams : Params := ⟨32, 0x1000, 3, .le⟩

/-- The status word the demo state has seen: an error where the FSM state needs one, else data-ready. -/
def demoSr (t : Fsm) : Word := if t = .rHwerr then 0x00000020 else 0x00000001

/-- The block in FSM state `t`, an 8-byte buffer, scripted answers; in `S_IDLE` it is not prepared. -/
def demo (t : Fsm) : State where
  cfg := demoParams
  st := t
  x := { Regs.reset with crSaved := 0x00000008, sr := demoSr t, word := 0x11223344, tmo := 1, rem := 8, wait := true }
  hwerr := false
  prepared := (preparedIn t).getD false
  response := none
  buf := ⟨8, [(0, 0xEE), (7, 0xEE)]⟩
  env := { Env.reset with
    clkPrepared := (preparedIn t).getD false || preparing t
    clkEnabled := clockOn t
    prepAnswers := [.ok]
    crAnswers := [0x00000008]
    srAnswers := [0x00000061]
    drAnswers := [0xCAFEF00D] }
  pending := []
  trace := []

/-- The idle block, prepared or not, with the host presenting a word. -/
def demoIdle (prepared : Bool) (w : Word) : State :=
  { demo .idle with
    prepared := prepared
    env := { (demo .idle).env with clkPrepared := prepared }
    pending := [⟨w, [(0, 0xEE), (9, 0xEE)]⟩] }

/-- The prepared idle block with a READ word presented, and scripted answers to reads of SR and DR. -/
def demoScript (w : Word) (sr dr : List Word) : State :=
  { demoIdle true w with env := { (demoIdle true w).env with srAnswers := sr, drAnswers := dr } }

/-- The same state with the reference peripheral; a word completes and an error latches before the next transaction. -/
def demoRef (s : State) : State :=
  { s with x.crSaved := 0x00000004, env := { s.env with
      kind := .reference
      win := ⟨0x00000004, 0x00000000, 0⟩
      moves := [⟨0, .complete 0xA0B0C0D0⟩, ⟨0, .latchSeed⟩] } }

/-! ### One step of each command -/

/-- INIT writes SR back with the two error bits cleared (spec/95_test_vectors.md section 3). -/
theorem test_init_clears_errors :
    (next? (exec .init { demo .iWrsr with x.sr := 0x00000061 })).map (fun t => (t.trace, t.prepared, t.st)) =
      some ([.regWrite 0x04 0x00000001], true, .iRet) := by decide

/-- A failed preparation: cause kept, no register touched (spec/95_test_vectors.md section 3). -/
theorem test_init_prepare_fails :
    (next? (exec .init { demo .iPrep with env.prepAnswers := [.fail 0x16] })).map
      (fun t => (t.trace, t.x.cause, t.st, t.env.clkPrepared)) =
      some ([.clkPrepare (.fail 0x16)], 0x16, .iFail, false) := by decide

/-- The last re-read of the budget reads zero: stop empty (spec/95_test_vectors.md V-R9, second pass). -/
theorem test_read_budget_exhausted :
    (next? (exec (.read 8 true) { demo .rPoll with env.srAnswers := [0] })).map
      (fun t => (t.trace, t.x.tmo, t.st)) = some ([.regRead 0x04 0], 0, .rRestore) := by decide

/-- The second word of V-R1: bytes 4 to 7, then the buffer is full. -/
theorem test_read_stores_second_word :
    (next? (exec (.read 8 true) { demo .rStore with x.word := 0xAABBCCDD, x.cnt := 4, x.rem := 4 })).map
      (fun t => (t.trace, t.st, t.buf.bytes)) =
      some ([.bufWrite 4 0xDD 0xCC 0xBB 0xAA], .rRestore,
        [(0, 0xEE), (4, 0xDD), (5, 0xCC), (6, 0xBB), (7, 0xAA)]) := by decide

/-- CLEANUP releases the clock and touches nothing else (spec/95_test_vectors.md section 5). -/
theorem test_cleanup_releases_clock :
    (next? (exec .cleanup (demo .cUnprep))).map (fun t => (t.trace, t.prepared, t.env.clkPrepared, t.st)) =
      some ([.clkUnprepare], false, false, .cRet) := by decide

theorem test_cleanup_returns :
    (next? (exec .cleanup (demo .cRet))).map (fun t => (t.trace, t.st)) =
      some ([.ret ⟨.ok, 0, false⟩], .idle) := by decide

/-- Each row's word, placed after reset, is accepted by the very next step. -/
theorem test_first_step_after_reset :
    (next? (step (State.reset.withFetchWord 32 0))).map (·.trace) = some [.accept .init] ∧
    (next? (step (State.reset.withFetchWord 32 0x45))).map (·.trace) = some [.accept (.read 8 true)] ∧
    (next? (step (State.reset.withFetchWord 32 2))).map (·.trace) = some [.accept .cleanup] := by decide

/-! ### Witnesses: words -/

theorem test_witness_DecodeEncodeRoundTrip :
    Instr.init.WellFormed ∧ (Instr.read 0 false).WellFormed ∧ (Instr.read 536870911 true).WellFormed ∧
    Instr.cleanup.WellFormed := by decide

theorem test_witness_DecodedWordIsItsEncoding : decode 0xFFFFFFFD = .ok (.read 536870911 true) := by decide

theorem test_witness_InvalidWordsAreThese :
    opField 0xFFFFFFFF = 0b11 ∧ (opField 0x00000004 = 0b00 ∧ (0x00000004 : Word) >>> 2 ≠ 0) ∧
    (opField 0x80000002 = 0b10 ∧ (0x80000002 : Word) >>> 2 ≠ 0) ∧ opField 0x00000001 = 0b01 := by decide

theorem test_witness_OpcodeRowsAreDisjoint :
    readRow ∈ opcodeMap ∧ readRow.selects 0x00000045 = true ∧ initRow ∈ opcodeMap ∧ initRow.selects 0 = true ∧
    cleanupRow ∈ opcodeMap ∧ cleanupRow.selects 2 = true := by decide

/-! ### Witnesses: states -/

/-- The demo states that the witnesses use meet the invariant. -/
theorem test_inv_iPrep : MachineInv (demo .iPrep) := by constructor <;> decide

theorem test_inv_iRet : MachineInv (demo .iRet) := by constructor <;> decide

theorem test_inv_iFail : MachineInv (demo .iFail) := by constructor <;> decide

theorem test_inv_rPoll : MachineInv (demo .rPoll) := by constructor <;> decide

theorem test_inv_rHwerr : MachineInv (demo .rHwerr) := by constructor <;> decide

theorem test_inv_rStore : MachineInv (demo .rStore) := by constructor <;> decide

theorem test_inv_rRet : MachineInv (demo .rRet) := by constructor <;> decide

theorem test_inv_cRet : MachineInv (demo .cRet) := by constructor <;> decide

theorem test_inv_reference : MachineInv (demoRef (demo .rRdsr)) := by constructor <;> decide

/-- `Presents` for each command, at the lengths where READ's clauses meet. -/
theorem test_presents_init : Presents (demoIdle false 0x00000000) .init := ⟨rfl, _, _, rfl, by decide⟩

theorem test_presents_read3 : Presents (demoIdle true 0x0000001D) (.read 3 true) := ⟨rfl, _, _, rfl, by decide⟩

theorem test_presents_read4 : Presents (demoIdle true 0x00000021) (.read 4 false) := ⟨rfl, _, _, rfl, by decide⟩

theorem test_presents_read8 : Presents (demoIdle true 0x00000045) (.read 8 true) := ⟨rfl, _, _, rfl, by decide⟩

theorem test_presents_cleanup : Presents (demoIdle true 0x00000002) .cleanup := ⟨rfl, _, _, rfl, by decide⟩

/-- One witness for each clause: a command presented, the three commands in progress, nothing presented. -/
theorem test_witness_StepRunsTheDecodedCommand :
    ((demoIdle true 0x45).st = .idle ∧ decode 0x45 = .ok (.read 8 true)) ∧
    family (demo .iPrep).st = some .init ∧ family (demo .rRdsr).st = some .read ∧
    family (demo .cUnprep).st = some .cleanup ∧ ((demo .idle).st = .idle ∧ (demo .idle).pending = []) := by decide

theorem test_witness_OutOfContractIsRefused :
    ((demoIdle true 0x03).st = .idle ∧ decode 0x03 = .error .reservedOp) ∧
    ((demoIdle true 0x00).st = .idle ∧ (demoIdle true 0x00).prepared = true) ∧
    ((demoIdle false 0x02).st = .idle ∧ (demoIdle false 0x02).prepared = false) := by decide

/-- Each of the three cases of a step. -/
theorem test_witness_StepIsOneEvent :
    (∃ t, step (demo .idle) = .next t) ∧ (∃ t, step (demoIdle false 0) = .next t) ∧
    (∃ t, step (demo .rHwerr) = .next t) := ⟨⟨_, rfl⟩, ⟨_, rfl⟩, ⟨_, rfl⟩⟩

theorem test_witness_WorkingStatesAlwaysStep : MachineInv (demo .rPoll) ∧ (demo .rPoll).st ≠ .idle :=
  ⟨test_inv_rPoll, by decide⟩

theorem test_witness_StepNeverFaults : MachineInv (demo .rStore) := test_inv_rStore

theorem test_witness_StepKeepsInv :
    (MachineInv (demo .rPoll) ∧ ∃ t, step (demo .rPoll) = .next t) ∧
    (MachineInv (demo .rStore) ∧ ∃ t, step (demo .rStore) = .next t) ∧
    (MachineInv (demoRef (demo .rRdsr)) ∧ ∃ t, step (demoRef (demo .rRdsr)) = .next t) :=
  ⟨⟨test_inv_rPoll, _, rfl⟩, ⟨test_inv_rStore, _, rfl⟩, ⟨test_inv_reference, _, rfl⟩⟩

theorem test_witness_ParametersNeverChange : ∃ t, step (demo .rStore) = .next t := ⟨_, rfl⟩

/-- A read and a write of INIT, one of each kind of READ, and a step of CLEANUP. -/
theorem test_witness_CommandsTouchOnlyTheirRegisters :
    (next? (exec .init (demo .iRdsr))).map (·.trace) = some [.regRead 0x04 0x00000061] ∧
    (next? (exec .init (demo .iWrsr))).map (·.trace) = some [.regWrite 0x04 0x00000001] ∧
    (next? (exec (.read 8 true) (demo .rRdcr))).map (·.trace) = some [.regRead 0x00 0x00000008] ∧
    (next? (exec (.read 8 true) (demo .rWrcr))).map (·.trace) = some [.regWrite 0x00 0x0000000C] ∧
    (next? (exec (.read 8 true) (demo .rRdsr))).map (·.trace) = some [.regRead 0x04 0x00000061] ∧
    (next? (exec (.read 8 true) (demo .rRddr))).map (·.trace) = some [.regRead 0x08 0xCAFEF00D] ∧
    (next? (exec (.read 8 true) (demo .rRestore))).map (·.trace) = some [.regWrite 0x00 0x00000008] ∧
    (next? (exec .cleanup (demo .cUnprep))).map (·.trace) = some [.clkUnprepare] := by decide

/-- A `Return` of each command: both of INIT, both of READ. -/
theorem test_witness_ResponsesAreLegal :
    (MachineInv (demo .iRet) ∧ (next? (step (demo .iRet))).map (·.trace) = some [.ret ⟨.ok, 0, false⟩]) ∧
    (MachineInv (demo .iFail) ∧
      (next? (step (demo .iFail))).map (·.trace) = some [.ret ⟨.clockUnavailable, 0, false⟩]) ∧
    (MachineInv (demo .rRet) ∧
      (next? (step (demo .rRet))).map (·.trace) = some [.ret ⟨.noDataTimeout, 0, false⟩]) ∧
    (next? (step { demo .rRet with x.cnt := 8, x.rem := 0 })).map (·.trace) = some [.ret ⟨.ok, 8, false⟩] ∧
    (MachineInv (demo .cRet) ∧ (next? (step (demo .cRet))).map (·.trace) = some [.ret ⟨.ok, 0, false⟩]) :=
  ⟨⟨test_inv_iRet, by decide⟩, ⟨test_inv_iFail, by decide⟩, ⟨test_inv_rRet, by decide⟩, by decide,
    ⟨test_inv_cRet, by decide⟩⟩

/-! ### Witnesses: INIT -/

theorem test_witness_InitIsAccepted : (demo .idle).st = .idle ∧ (demo .idle).prepared = false := by decide

/-- Both answers of the clock facility. -/
theorem test_witness_InitPreparesTheClock :
    ((demo .iPrep).st = .iPrep ∧ drawPrep (demo .iPrep).env = .ok) ∧
    drawPrep { (demo .iPrep).env with prepAnswers := [.fail 0x1FFFFFFF] } = .fail 0x1FFFFFFF := by decide

theorem test_witness_InitReportsClockFailure : (demo .iFail).st = .iFail := by decide

theorem test_witness_InitReadsStatus : (demo .iRdsr).st = .iRdsr ∧ (demo .iRdsr).cfg.Placed := by decide

theorem test_witness_InitClearsTheErrorBits : (demo .iWrsr).st = .iWrsr ∧ (demo .iWrsr).cfg.Placed := by decide

theorem test_witness_InitReturnsOk : (demo .iRet).st = .iRet ∧ MachineInv (demo .iRet) := ⟨rfl, test_inv_iRet⟩

theorem test_witness_InitFrame :
    (∃ t, exec .init (demo .iWrsr) = .next t) ∧ ∃ t, exec .init (demo .iPrep) = .next t := ⟨⟨_, rfl⟩, ⟨_, rfl⟩⟩

theorem test_witness_InitCallTrace :
    Presents (demoIdle false 0) .init ∧ (demoIdle false 0).prepared = false ∧ (demoIdle false 0).cfg.Placed :=
  ⟨test_presents_init, by decide⟩

theorem test_witness_InitStepsMatchPseudocode : Presents (demoIdle false 0) .init := test_presents_init

/-! ### Witnesses: READ -/

/-- Both sides of `n >= 4`, and the longest length. -/
theorem test_witness_ReadIsAccepted :
    (demoIdle true 0x45).st = .idle ∧ (demoIdle true 0x45).prepared = true ∧ 3 < 2 ^ 29 ∧ 4 < 2 ^ 29 ∧
    536870911 < 2 ^ 29 := by decide

theorem test_witness_ShortReadTouchesNothing :
    Presents (demoIdle true 0x1D) (.read 3 true) ∧ (demoIdle true 0x1D).prepared = true ∧ 3 < 4 :=
  ⟨test_presents_read3, by decide⟩

theorem test_witness_ReadGatesTheClockOn : (demo .rClken).st = .rClken := by decide

theorem test_witness_ReadSavesTheControlRegister : (demo .rRdcr).st = .rRdcr ∧ (demo .rRdcr).cfg.Placed := by decide

theorem test_witness_ReadSetsTheEnableBit : (demo .rWrcr).st = .rWrcr ∧ (demo .rWrcr).cfg.Placed := by decide

/-- Zero with `wait`, and a nonzero word. -/
theorem test_witness_ReadFirstStatus :
    ((demo .rRdsr).st = .rRdsr ∧ (demo .rRdsr).cfg.Placed ∧ (demo .rRdsr).x.wait = true) ∧
    (envRead { (demo .rRdsr).env with srAnswers := [0] } .sr).1 = 0 ∧
    (envRead (demo .rRdsr).env .sr).1 = 0x00000061 := by decide

/-- Zero with budget left, zero at the last re-read, and a nonzero word. -/
theorem test_witness_ReadPollsOnce :
    ((demo .rPoll).st = .rPoll ∧ (demo .rPoll).cfg.Placed ∧ 1 ≤ (demo .rPoll).x.tmo ∧ (demo .rPoll).x.tmo = 1) ∧
    (1 ≤ { demo .rPoll with x.tmo := 2 }.x.tmo ∧ { demo .rPoll with x.tmo := 2 }.x.tmo ≠ 1) ∧
    (envRead { (demo .rPoll).env with srAnswers := [0] } .sr).1 = 0 ∧
    (envRead (demo .rPoll).env .sr).1 = 0x00000061 := by decide

theorem test_witness_StatusEvaluationOrder :
    (0x00000021 : Word) &&& 0x00000060 ≠ 0 ∧ (0 : Word) = 0 ∧
    ((0x00000002 : Word) ≠ 0 ∧ (0x00000002 : Word) &&& 0x00000060 = 0) := by decide

theorem test_witness_ReadSignalsHardwareError : (demo .rHwerr).st = .rHwerr := by decide

theorem test_witness_ReadTakesTheDataWord : (demo .rRddr).st = .rRddr ∧ (demo .rRddr).cfg.Placed := by decide

/-- A store with room for another word, and one that fills the buffer. -/
theorem test_witness_ReadStoresTheWord :
    ((demo .rStore).st = .rStore ∧ (demo .rStore).x.cnt.toNat + 4 ≤ (demo .rStore).buf.len) ∧
    { demo .rStore with x.cnt := 4, x.rem := 4 }.x.cnt.toNat + 4 ≤ (demo .rStore).buf.len := by decide

theorem test_witness_ReadRestoresTheControlRegister :
    (demo .rRestore).st = .rRestore ∧ (demo .rRestore).cfg.Placed := by decide

theorem test_witness_ReadGatesTheClockOff : (demo .rClkdis).st = .rClkdis := by decide

/-- The three rows of the response. -/
theorem test_witness_ReadReturnsTheCount :
    (demo .rRet).st = .rRet ∧ { demo .rRet with x.cnt := 4 }.x.cnt ≠ 0 ∧
    ((demo .rRet).x.cnt = 0 ∧ { demo .rRet with x.wait := false }.x.wait = false) ∧
    ((demo .rRet).x.cnt = 0 ∧ (demo .rRet).x.wait = true) := by decide

theorem test_witness_ReadFrame :
    (∃ t, exec (.read 8 true) (demoIdle true 0x45) = .next t) ∧ (demoIdle true 0x45).st ≠ .rStore ∧
    (∃ t, exec (.read 8 true) (demo .rRddr) = .next t) ∧ (demo .rRddr).st ≠ .rStore :=
  ⟨⟨_, rfl⟩, by decide, ⟨_, rfl⟩, by decide⟩

theorem test_witness_ReadStoreFrame :
    (∃ t, exec (.read 8 true) (demo .rStore) = .next t) ∧ (demo .rStore).st = .rStore := ⟨⟨_, rfl⟩, by decide⟩

theorem test_witness_ReadStepsMatchPseudocode :
    (Presents (demoIdle true 0x1D) (.read 3 true) ∧ (demoIdle true 0x1D).cfg.Ok) ∧
    (Presents (demoIdle true 0x21) (.read 4 false) ∧ (demoIdle true 0x21).cfg.Ok) :=
  ⟨⟨test_presents_read3, by decide⟩, ⟨test_presents_read4, by decide⟩⟩

theorem test_witness_ReadCallHasTraceOfGrammar :
    Presents (demoIdle true 0x45) (.read 8 true) ∧ (demoIdle true 0x45).prepared = true ∧
    (demoIdle true 0x45).cfg.Ok := ⟨test_presents_read8, by decide⟩

/-- A short trace, and one with a producing pass that polled, then a stop on an error bit. -/
theorem test_witness_EveryTraceOfGrammarIsARead :
    1 ≤ 3 ∧ 3 < 2 ^ 29 ∧ ReadTrace 3 .le 3 true [.accept (.read 3 true), .ret ⟨readStatus 0 true, 0, false⟩] :=
  ⟨by decide, by decide, .short (by decide)⟩

theorem test_witness_EveryTraceOfGrammarIsARead_long :
    1 ≤ 3 ∧ 12 < 2 ^ 29 ∧ ∃ tr, ReadTrace 3 .le 12 true tr :=
  ⟨by decide, by decide, _, .long 0 _ 1 true (by decide)
    (.produce 0 1 0xDEADBEEF _ _ 1 true (by decide) (.polled 1 2 rfl (by decide) (by decide)) (by decide) (by decide)
      (.stopError 1 0x41 _ (by decide) (.ready 0x41 (by decide)) (by decide)))⟩

/-- READ 8, wait with two ready words. -/
theorem test_witness_AlwaysReadyReadFillsTheBuffer :
    let s := demoScript 0x45 [1, 1] [0x11223344, 0xAABBCCDD]
    Presents s (.read 8 true) ∧ s.prepared = true ∧ s.cfg.Ok ∧ s.env.kind = .drawn ∧ 4 ≤ 8 ∧
    ([0x11223344, 0xAABBCCDD] : List Word).length = 8 / 4 ∧
    s.env.srAnswers = List.replicate (8 / 4) 0x00000001 ++ [] ∧
    s.env.drAnswers = [0x11223344, 0xAABBCCDD] ++ [] :=
  ⟨⟨rfl, _, _, rfl, by decide⟩, by decide⟩

/-- READ 8, wait with `1 + T_POLL` zero status words. -/
theorem test_witness_NeverReadyReadTimesOut :
    let s := demoScript 0x45 [0, 0, 0, 0] []
    Presents s (.read 8 true) ∧ s.prepared = true ∧ s.cfg.Ok ∧ s.env.kind = .drawn ∧ 4 ≤ 8 ∧
    s.env.srAnswers = List.replicate (1 + s.cfg.tPoll) 0x00000000 ++ [] :=
  ⟨⟨rfl, _, _, rfl, by decide⟩, by decide⟩

/-- READ 8, wait: one ready word, then seed-error, and the data word. -/
theorem test_witness_ErrorKeepsTheWordsCaptured :
    let s := demoScript 0x45 [1, 0x40] [0xDEADBEEF]
    Presents s (.read 8 true) ∧ s.prepared = true ∧ s.cfg.Ok ∧ s.env.kind = .drawn ∧ 1 < 8 / 4 ∧
    (0x40 : Word) &&& 0x00000060 ≠ 0 ∧ s.env.srAnswers = List.replicate 1 0x00000001 ++ 0x40 :: [] ∧
    ([0xDEADBEEF] : List Word).length = 1 ∧ s.env.drAnswers = [0xDEADBEEF] ++ [] :=
  ⟨⟨rfl, _, _, rfl, by decide⟩, by decide⟩

/-- The boundary `m = 0` with `wait`: the first status word has an error bit (spec/95_test_vectors.md V-R5). -/
theorem test_witness_ErrorKeepsTheWordsCaptured_none :
    let s := demoScript 0x25 [0x40] []
    Presents s (.read 4 true) ∧ s.prepared = true ∧ s.cfg.Ok ∧ s.env.kind = .drawn ∧ 0 < 4 / 4 ∧
    (0x40 : Word) &&& 0x00000060 ≠ 0 ∧ s.env.srAnswers = List.replicate 0 0x00000001 ++ 0x40 :: [] ∧
    ([] : List Word).length = 0 ∧ s.env.drAnswers = [] ++ [] :=
  ⟨⟨rfl, _, _, rfl, by decide⟩, by decide⟩

/-- READ 4, nowait: nothing ready. -/
theorem test_witness_NonBlockingReadStopsEmpty :
    let s := demoScript 0x21 [0] []
    Presents s (.read 4 false) ∧ s.prepared = true ∧ s.cfg.Ok ∧ s.env.kind = .drawn ∧ 0 < 4 / 4 ∧
    s.env.srAnswers = List.replicate 0 0x00000001 ++ 0x00000000 :: [] ∧
    ([] : List Word).length = 0 ∧ s.env.drAnswers = [] ++ [] := ⟨⟨rfl, _, _, rfl, by decide⟩, by decide⟩

/-- READ 8, nowait: one ready word, then nothing. -/
theorem test_witness_NonBlockingReadStopsEmpty_one :
    let s := demoScript 0x41 [1, 0] [7]
    Presents s (.read 8 false) ∧ s.prepared = true ∧ s.cfg.Ok ∧ s.env.kind = .drawn ∧ 1 < 8 / 4 ∧
    s.env.srAnswers = List.replicate 1 0x00000001 ++ 0x00000000 :: [] ∧
    ([7] : List Word).length = 1 ∧ s.env.drAnswers = [7] ++ [] := ⟨⟨rfl, _, _, rfl, by decide⟩, by decide⟩

/-! ### Witnesses: CLEANUP -/

theorem test_witness_CleanupIsAccepted :
    (demoIdle true 2).st = .idle ∧ (demoIdle true 2).prepared = true := by decide

theorem test_witness_CleanupReleasesTheClock : (demo .cUnprep).st = .cUnprep := by decide

theorem test_witness_CleanupReturnsOk : (demo .cRet).st = .cRet ∧ MachineInv (demo .cRet) := ⟨rfl, test_inv_cRet⟩

theorem test_witness_CleanupFrame :
    (∃ t, exec .cleanup (demo .cUnprep) = .next t) ∧ ∃ t, exec .cleanup (demo .cRet) = .next t := ⟨⟨_, rfl⟩, ⟨_, rfl⟩⟩

theorem test_witness_CleanupCallTrace :
    Presents (demoIdle true 2) .cleanup ∧ (demoIdle true 2).prepared = true := ⟨test_presents_cleanup, by decide⟩

/-! ### Witnesses: the environment -/

theorem test_witness_AnswersAreTheEnvironmentsChoice :
    (demo .rRdcr).env.kind = .drawn ∧ (demo .rRdcr).env.crAnswers = [0x00000008] ∧
    (demo .rRdsr).env.srAnswers = [0x00000061] ∧ (demo .rRddr).env.drAnswers = [0xCAFEF00D] ∧
    (demo .iPrep).env.prepAnswers = [.ok] := by decide

/-- Data-ready set, a word completed, and bits at both ends of SR. -/
theorem test_witness_ReferencePeripheralActs :
    (⟨4, 1, 7⟩ : Window).sr.getLsbD 0 = true ∧ periphAct (.complete 5) ⟨4, 0x40, 0⟩ = some ⟨4, 0x41, 5⟩ ∧
    periphAct (.complete 5) ⟨0, 0, 0⟩ = none ∧ 0 < 32 ∧ 31 < 32 := by decide

/-- A word is completed and an error is latched before each of a read of SR, a read of DR and a write of SR: the
registers found, and left (spec/10_state.md R42, R44). -/
theorem test_witness_ReferenceRunsMeetTheEnvironmentProperties :
    (demoRef (demo .rRdsr)).env.kind = .reference ∧ (next? (run 1 (demoRef (demo .rRdsr)))).isSome = true ∧
    transactions 1 (demoRef (demo .rRdsr)) =
      [⟨.regRead 0x04 0x00000041, ⟨4, 0x41, 0xA0B0C0D0⟩, ⟨4, 0x41, 0xA0B0C0D0⟩⟩] ∧
    transactions 1 (demoRef (demo .rRddr)) =
      [⟨.regRead 0x08 0xA0B0C0D0, ⟨4, 0x41, 0xA0B0C0D0⟩, ⟨4, 0x40, 0xA0B0C0D0⟩⟩] ∧
    transactions 1 (demoRef (demo .iWrsr)) =
      [⟨.regWrite 0x04 0x00000001, ⟨4, 0x41, 0xA0B0C0D0⟩, ⟨4, 0x01, 0xA0B0C0D0⟩⟩] := by decide

/-- The premise of its last clause: the invariant, with the reference peripheral. -/
theorem test_witness_ReferenceRunsMeetTheEnvironmentProperties_inv :
    MachineInv (demoRef (demo .rRdsr)) ∧ ∃ t, run 1 (demoRef (demo .rRdsr)) = .next t := ⟨test_inv_reference, _, rfl⟩

theorem test_witness_InitLeavesReferenceErrorsClear :
    (demoRef (demo .iWrsr)).st = .iWrsr ∧ (demoRef (demo .iWrsr)).cfg.Placed ∧
    (demoRef (demo .iWrsr)).env.kind = .reference := by decide

theorem test_witness_ReadRestoresReferenceControl :
    Presents (demoRef (demoIdle true 0x45)) (.read 8 true) ∧ (demoRef (demoIdle true 0x45)).prepared = true ∧
    (demoRef (demoIdle true 0x45)).cfg.Ok ∧ (demoRef (demoIdle true 0x45)).env.kind = .reference :=
  ⟨⟨rfl, _, _, rfl, by decide⟩, by decide⟩

theorem test_witness_WorkingRegistersCarryNothingOver : (demoIdle true 0x45).st = .idle := by decide

end Sys2Proof.Tests
end

section
/-! SUPPORT. Progress: what `step` answers in `S_IDLE` and in the working states, and that under the invariant every
working state goes on (spec/10_state.md R20). -/

namespace Sys2Proof.Machine

open Sys2Proof.Safety

/-! ### `step` is the meaning of the command in progress -/

theorem step_of_init {s : State} (h : family s.st = some .init) : step s = execInit s := by
  simp [step, fetch, h, exec]

theorem step_of_read {s : State} (h : family s.st = some .read) :
    step s = execRead s.buf.len s.x.wait s := by
  simp [step, fetch, h, exec]

theorem step_of_cleanup {s : State} (h : family s.st = some .cleanup) : step s = execCleanup s := by
  simp [step, fetch, h, exec]

/-- In `S_IDLE` the fetched command is the one the host presents. -/
theorem fetch_command_idle {s : State} {i : Instr} (hs : s.st = .idle) (h : fetch s = .command i) :
    ∃ p rest, s.pending = p :: rest ∧ decode p.word = .ok i := by
  have hnone : family s.st = none := family_eq_none.2 hs
  rcases fetch_command h with ⟨-, hp⟩ | ⟨hf, -⟩ | ⟨hf, -⟩ | ⟨hf, -⟩
  · exact hp
  all_goals simp [hnone] at hf

/-! ### The working states go on -/

/-- Either answer of the clock facility has a next state (spec/40_init.md R111). -/
theorem stepIPrep_goes_on (s : State) : ∃ t, stepIPrep s = .next t := by
  unfold stepIPrep
  split <;> exact ⟨_, rfl⟩

/-- Either status of READ is returned (spec/41_read.md R136). -/
theorem stepRRet_goes_on (s : State) : ∃ t, stepRRet s = .next t := by
  unfold stepRRet
  split <;> exact ⟨_, rfl⟩

theorem execInit_goes_on {s : State} (hp : s.cfg.Placed) (hf : family s.st = some .init) :
    ∃ t, execInit s = .next t := by
  unfold execInit
  cases hst : s.st with
  | iPrep => exact stepIPrep_goes_on s
  | iRdsr => exact ⟨_, stepIRdsr_eq s hp⟩
  | iWrsr => exact ⟨_, stepIWrsr_eq s hp⟩
  | iFail | iRet => exact ⟨_, rfl⟩
  | _ => simp [hst, family] at hf

theorem execRead_goes_on {s : State} (n : Nat) (wait : Bool) (hp : s.cfg.Placed)
    (hroom : s.st = .rStore → s.x.cnt.toNat + 4 ≤ s.buf.len) (hf : family s.st = some .read) :
    ∃ t, execRead n wait s = .next t := by
  unfold execRead
  cases hst : s.st with
  | rClken | rHwerr | rClkdis => exact ⟨_, rfl⟩
  | rRdcr => exact ⟨_, stepRRdcr_eq s hp⟩
  | rWrcr => exact ⟨_, stepRWrcr_eq s hp⟩
  | rRdsr => exact ⟨_, stepRRdsr_eq s hp⟩
  | rPoll => exact ⟨_, stepRPoll_eq s hp⟩
  | rRddr => exact ⟨_, stepRRddr_eq s hp⟩
  | rStore => exact ⟨_, stepRStore_eq s (hroom hst)⟩
  | rRestore => exact ⟨_, stepRRestore_eq s hp⟩
  | rRet => exact stepRRet_goes_on s
  | _ => simp [hst, family] at hf

theorem execCleanup_goes_on {s : State} (hf : family s.st = some .cleanup) : ∃ t, execCleanup s = .next t := by
  unfold execCleanup
  cases hst : s.st with
  | cUnprep | cRet => exact ⟨_, rfl⟩
  | _ => simp [hst, family] at hf

/-- Before a store the counters leave a word's room above the cursor (spec/41_read.md R125, R137). -/
theorem store_fits_of_inv {s : State} (hinv : MachineInv s) (hst : s.st = .rStore) :
    s.x.cnt.toNat + 4 ≤ s.buf.len := by
  have hsum : s.x.cnt.toNat + s.x.rem.toNat = s.buf.len := hinv.counters (by rw [hst]; rfl)
  have hrem : 4 ≤ s.x.rem.toNat := hinv.room (by rw [hst]; rfl)
  omega

/-- Under the invariant no working state is stuck (spec/10_state.md R20). -/
theorem step_goes_on_of_working {s : State} (hinv : MachineInv s) (hs : s.st ≠ .idle) :
    ∃ t, step s = .next t := by
  have hplaced : s.cfg.Placed := hinv.cfgOk.1
  cases hf : family s.st with
  | none => exact absurd (family_eq_none.1 hf) hs
  | some c =>
    cases c with
    | init => exact step_of_init hf ▸ execInit_goes_on hplaced hf
    | read => exact step_of_read hf ▸ execRead_goes_on _ _ hplaced (store_fits_of_inv hinv) hf
    | cleanup => exact step_of_cleanup hf ▸ execCleanup_goes_on hf

/-! ### An idle block accepts or refuses -/

/-- Accept tests `prepared` only: it goes on or is refused (spec/30_encoding.md R93, R95). -/
theorem exec_idle_ne_fault {s : State} (hs : s.st = .idle) (i : Instr) (f : Fault) : exec i s ≠ .fault f := by
  cases i with
  | init =>
    simp only [exec, execInit, hs, stepAcceptInit]
    split <;> simp
  | read n wait =>
    simp only [exec, execRead, hs, stepAcceptRead]
    split <;> simp
  | cleanup =>
    simp only [exec, execCleanup, hs, stepAcceptCleanup]
    split <;> simp

theorem step_idle_ne_fault {s : State} (hs : s.st = .idle) (f : Fault) : step s ≠ .fault f := by
  unfold step
  split
  · simp
  · exact exec_idle_ne_fault hs _ f
  · simp

end Sys2Proof.Machine
end

section
/-! SUPPORT. What every step that goes on keeps or appends, from the inversions of the three commands: the parameters
(spec/00_scope.md R7) and the one event (R11, R12). -/

namespace Sys2Proof.Machine

/-! ### The parameters -/

theorem InitNext.cfg_eq {s t : State} (h : InitNext s t) : t.cfg = s.cfg := by
  cases h <;> rfl

theorem ReadNext.cfg_eq {n : Nat} {wait : Bool} {s t : State} (h : ReadNext n wait s t) : t.cfg = s.cfg := by
  cases h <;> rfl

theorem CleanupNext.cfg_eq {s t : State} (h : CleanupNext s t) : t.cfg = s.cfg := by
  cases h <;> rfl

theorem exec_cfg {i : Instr} {s t : State} (h : exec i s = .next t) : t.cfg = s.cfg := by
  cases i with
  | init => exact (execInit_next h).cfg_eq
  | read n wait => exact (execRead_next h).cfg_eq
  | cleanup => exact (execCleanup_next h).cfg_eq

/-! ### The one event -/

/-- The step from `s` to `t` accepts `i` from the host (spec/30_encoding.md R93). -/
structure Accepts (i : Instr) (s t : State) : Prop where
  idle : s.st = .idle
  pending : t.pending = s.pending.tail
  trace : t.trace = s.trace ++ [.accept i]
  hwerr : t.hwerr = false

/-- The step from `s` to `t` is a working step: one event that is no Accept, and nothing taken from the host
(spec/00_scope.md R11, R12). -/
structure Works (s t : State) : Prop where
  busy : s.st ≠ .idle
  pending : t.pending = s.pending
  event : ∃ e, t.trace = s.trace ++ [e] ∧ ∀ i, e ≠ .accept i

/-- A working step from the FSM state it is taken in and the event it appends. -/
theorem Works.of_event {s t : State} {q : Fsm} (e : Event) (hst : s.st = q) (hq : q ≠ .idle)
    (hp : t.pending = s.pending) (ht : t.trace = s.trace ++ [e]) (he : ∀ i, e ≠ .accept i) : Works s t :=
  ⟨hst ▸ hq, hp, e, ht, he⟩

theorem InitNext.accepts_or_works {s t : State} (h : InitNext s t) : Accepts .init s t ∨ Works s t := by
  cases h with
  | accept h _ => exact .inl ⟨h, rfl, rfl, rfl⟩
  | prepOk h _ | prepFail h _ _ | fail h | rdsr h _ | wrsr h _ | ret h =>
    exact .inr (.of_event _ h nofun rfl rfl nofun)

theorem ReadNext.accepts_or_works {n : Nat} {wait : Bool} {s t : State} (h : ReadNext n wait s t) :
    Accepts (.read n wait) s t ∨ Works s t := by
  cases h with
  | accept h _ => exact .inl ⟨h, rfl, rfl, rfl⟩
  | clken h | rdcr h _ | wrcr h _ | rdsr h _ | poll h _ | hwerr h | rddr h _ | store h _ | restore h _ | clkdis h
  | retTimeout h _ _ | retOk h _ =>
    exact .inr (.of_event _ h nofun rfl rfl nofun)

theorem CleanupNext.accepts_or_works {s t : State} (h : CleanupNext s t) : Accepts .cleanup s t ∨ Works s t := by
  cases h with
  | accept h _ => exact .inl ⟨h, rfl, rfl, rfl⟩
  | unprep h | ret h => exact .inr (.of_event _ h nofun rfl rfl nofun)

theorem exec_accepts_or_works {i : Instr} {s t : State} (h : exec i s = .next t) : Accepts i s t ∨ Works s t := by
  cases i with
  | init => exact (execInit_next h).accepts_or_works
  | read n wait => exact (execRead_next h).accepts_or_works
  | cleanup => exact (execCleanup_next h).accepts_or_works

end Sys2Proof.Machine
end

section
/-! PROOFS of the statements about the scope: one event per step, no fault, fixed parameters
(spec/00_scope.md sections 4, 5 and 7). -/

namespace Sys2Proof.Proofs

open Sys2Proof.Machine Sys2Proof.Safety

/-- Settles O9, by the inversion of `step`: a step waits, or is a step of the fetched command, which accepts or works;
a command accepted in `S_IDLE` is the one the host presents. -/
theorem stepIsOneEvent : Obligations.StepIsOneEvent := by
  intro s t h
  rcases step_eq_next h with ⟨hwait, rfl⟩ | ⟨i, hfetch, hexec⟩
  · obtain ⟨hidle, hnone⟩ := fetch_waiting hwait
    exact .inl ⟨hidle, hnone, rfl⟩
  · rcases exec_accepts_or_works hexec with ⟨hidle, hpending, htrace, hhwerr⟩ | ⟨hbusy, hpending, hevent⟩
    · obtain ⟨p, rest, hp, hdecode⟩ := fetch_command_idle hidle hfetch
      have hrest : t.pending = rest := by rw [hpending, hp, List.tail_cons]
      exact .inr (.inl ⟨hidle, p, i, hrest ▸ hp, hdecode, htrace, hhwerr⟩)
    · exact .inr (.inr ⟨hbusy, hpending, hevent⟩)

/-- Settles O11: an idle block accepts or refuses, and under the invariant a working one goes on. -/
theorem stepNeverFaults : Obligations.StepNeverFaults := by
  intro s hinv f
  by_cases hs : s.st = .idle
  · exact step_idle_ne_fault hs f
  · obtain ⟨t, ht⟩ := step_goes_on_of_working hinv hs
    simp [ht]

/-- Settles O15: waiting changes nothing, and no step of a command writes the parameters. -/
theorem parametersNeverChange : Obligations.ParametersNeverChange := by
  intro s t h
  rcases step_eq_next h with ⟨-, rfl⟩ | ⟨i, -, hexec⟩
  · rfl
  · exact exec_cfg hexec

end Sys2Proof.Proofs
end

section
/-! SUPPORT. What a step of each command leaves unchanged, one lemma per field or group of fields, from the
inversions of the commands (spec/10_state.md R21, R22, R27). -/

namespace Sys2Proof.Machine

section Init
variable {s t : State} (h : InitNext s t)
include h

theorem InitNext.buf_eq : t.buf = s.buf := by
  cases h <;> rfl

theorem InitNext.env_kind_eq : t.env.kind = s.env.kind := by
  cases h with
  | rdsr | wrsr => simp
  | _ => rfl

theorem InitNext.clkEnabled_eq : t.env.clkEnabled = s.env.clkEnabled := by
  cases h with
  | rdsr | wrsr => simp
  | _ => rfl

/-- INIT works on `sr` and `cause` alone (spec/40_init.md R110). -/
theorem InitNext.x_eq : t.x = { s.x with sr := t.x.sr, cause := t.x.cause } := by
  cases h <;> rfl

theorem InitNext.sr_eq (hs : s.st ≠ .iRdsr) : t.x.sr = s.x.sr := by
  cases h with
  | rdsr hst => exact absurd hst hs
  | _ => rfl

theorem InitNext.cause_eq (hs : s.st ≠ .iPrep) : t.x.cause = s.x.cause := by
  cases h with
  | prepFail hst => exact absurd hst hs
  | _ => rfl

theorem InitNext.hwerr_eq (hs : s.st ≠ .idle) : t.hwerr = s.hwerr := by
  cases h with
  | accept hst => exact absurd hst hs
  | _ => rfl

theorem InitNext.pending_eq (hs : s.st ≠ .idle) : t.pending = s.pending := by
  cases h with
  | accept hst => exact absurd hst hs
  | _ => rfl

theorem InitNext.prepared_eq (hs : s.st ≠ .iWrsr) : t.prepared = s.prepared := by
  cases h with
  | wrsr hst => exact absurd hst hs
  | _ => rfl

theorem InitNext.response_eq (hf : s.st ≠ .iFail) (hr : s.st ≠ .iRet) : t.response = s.response := by
  cases h with
  | fail hst => exact absurd hst hf
  | ret hst => exact absurd hst hr
  | _ => rfl

theorem InitNext.clkPrepared_eq (hs : s.st ≠ .iPrep) : t.env.clkPrepared = s.env.clkPrepared := by
  cases h with
  | prepOk hst | prepFail hst => exact absurd hst hs
  | rdsr | wrsr => simp
  | _ => rfl

theorem InitNext.win_eq (hr : s.st ≠ .iRdsr) (hw : s.st ≠ .iWrsr) : t.env.win = s.env.win := by
  cases h with
  | rdsr hst => exact absurd hst hr
  | wrsr hst => exact absurd hst hw
  | _ => rfl

end Init

section Read
variable {n : Nat} {wait : Bool} {s t : State} (h : ReadNext n wait s t)
include h

theorem ReadNext.prepared_eq : t.prepared = s.prepared := by
  cases h <;> rfl

theorem ReadNext.cause_eq : t.x.cause = s.x.cause := by
  cases h <;> rfl

theorem ReadNext.env_kind_eq : t.env.kind = s.env.kind := by
  cases h with
  | rdcr | wrcr | rdsr | poll | rddr | restore => simp
  | _ => rfl

theorem ReadNext.clkPrepared_eq : t.env.clkPrepared = s.env.clkPrepared := by
  cases h with
  | rdcr | wrcr | rdsr | poll | rddr | restore => simp
  | _ => rfl

theorem ReadNext.crSaved_eq (hs : s.st ≠ .rRdcr) : t.x.crSaved = s.x.crSaved := by
  cases h with
  | rdcr hst => exact absurd hst hs
  | _ => rfl

theorem ReadNext.sr_tmo_eq (hr : s.st ≠ .rRdsr) (hp : s.st ≠ .rPoll) : t.x.sr = s.x.sr ∧ t.x.tmo = s.x.tmo := by
  cases h with
  | rdsr hst => exact absurd hst hr
  | poll hst => exact absurd hst hp
  | _ => exact ⟨rfl, rfl⟩

theorem ReadNext.word_eq (hs : s.st ≠ .rRddr) : t.x.word = s.x.word := by
  cases h with
  | rddr hst => exact absurd hst hs
  | _ => rfl

/-- The latched `wait` and the host's list change at Accept only (spec/41_read.md R121). -/
theorem ReadNext.wait_pending_eq (hi : s.st ≠ .idle) : t.x.wait = s.x.wait ∧ t.pending = s.pending := by
  cases h with
  | accept hst => exact absurd hst hi
  | _ => exact ⟨rfl, rfl⟩

/-- Only Accept and the store touch the counters and the buffer (spec/41_read.md R121, R133). -/
theorem ReadNext.counters_buf_eq (hi : s.st ≠ .idle) (hs : s.st ≠ .rStore) :
    t.x.rem = s.x.rem ∧ t.x.cnt = s.x.cnt ∧ t.buf = s.buf := by
  cases h with
  | accept hst => exact absurd hst hi
  | store hst => exact absurd hst hs
  | _ => exact ⟨rfl, rfl, rfl⟩

/-- At Accept the buffer becomes the host's (spec/10_state.md R36). -/
theorem ReadNext.buf_of_accept (hi : s.st = .idle) : t.buf = hostBuffer n (presentedBytes s) := by
  cases h with
  | accept => rfl
  | clken hst | rdcr hst | wrcr hst | rdsr hst | poll hst | hwerr hst | rddr hst | store hst | restore hst | clkdis hst
  | retTimeout hst | retOk hst => simp [hi] at hst

theorem ReadNext.hwerr_eq (hi : s.st ≠ .idle) (hh : s.st ≠ .rHwerr) : t.hwerr = s.hwerr := by
  cases h with
  | accept hst => exact absurd hst hi
  | hwerr hst => exact absurd hst hh
  | _ => rfl

theorem ReadNext.response_eq (hs : s.st ≠ .rRet) : t.response = s.response := by
  cases h with
  | retTimeout hst | retOk hst => exact absurd hst hs
  | _ => rfl

theorem ReadNext.clkEnabled_eq (he : s.st ≠ .rClken) (hd : s.st ≠ .rClkdis) :
    t.env.clkEnabled = s.env.clkEnabled := by
  cases h with
  | clken hst => exact absurd hst he
  | clkdis hst => exact absurd hst hd
  | rdcr | wrcr | rdsr | poll | rddr | restore => simp
  | _ => rfl

theorem ReadNext.win_eq (hrdcr : s.st ≠ .rRdcr) (hwrcr : s.st ≠ .rWrcr) (hrdsr : s.st ≠ .rRdsr) (hpoll : s.st ≠ .rPoll)
    (hrddr : s.st ≠ .rRddr) (hrestore : s.st ≠ .rRestore) : t.env.win = s.env.win := by
  cases h with
  | rdcr hst => exact absurd hst hrdcr
  | wrcr hst => exact absurd hst hwrcr
  | rdsr hst => exact absurd hst hrdsr
  | poll hst => exact absurd hst hpoll
  | rddr hst => exact absurd hst hrddr
  | restore hst => exact absurd hst hrestore
  | _ => rfl

end Read

section Cleanup
variable {s t : State} (h : CleanupNext s t)
include h

theorem CleanupNext.x_eq : t.x = s.x := by
  cases h <;> rfl

theorem CleanupNext.buf_eq : t.buf = s.buf := by
  cases h <;> rfl

theorem CleanupNext.env_kind_eq : t.env.kind = s.env.kind := by
  cases h <;> rfl

theorem CleanupNext.win_eq : t.env.win = s.env.win := by
  cases h <;> rfl

end Cleanup

/-- No step changes how the window answers (spec/10_state.md R47). -/
theorem exec_env_kind {i : Instr} {s t : State} (h : exec i s = .next t) : t.env.kind = s.env.kind := by
  cases i with
  | init => exact (execInit_next h).env_kind_eq
  | read n wait => exact (execRead_next h).env_kind_eq
  | cleanup => exact (execCleanup_next h).env_kind_eq

theorem step_env_kind {s u : State} (h : step s = .next u) : u.env.kind = s.env.kind := by
  rcases step_eq_next h with ⟨-, rfl⟩ | ⟨i, -, hexec⟩
  · rfl
  · exact exec_env_kind hexec

/-- A command is only ever taken from the host's list, never added to it (spec/30_encoding.md R93). -/
theorem exec_pending_subset {i : Instr} {s t : State} (h : exec i s = .next t) : t.pending ⊆ s.pending := by
  rcases exec_accepts_or_works h with ⟨-, hp, -, -⟩ | ⟨-, hp, -⟩
  · exact hp ▸ List.tail_subset _
  · exact hp ▸ List.Subset.refl _

end Sys2Proof.Machine
end

section
/-! SUPPORT. The register events of each command (spec/10_state.md R34, R35), the parameters at construction (R50), and
the reference peripheral bit by bit (R40 to R44). -/

namespace Sys2Proof.Machine

/-! ### The register events -/

section Events
variable {n : Nat} {wait : Bool} {s t : State} {off : Nat} {v : Word}

theorem InitNext.regRead (h : InitNext s t) (ht : t.trace = s.trace ++ [.regRead off v]) :
    off = offSr ∧ s.st = .iRdsr := by
  cases h with
  | rdsr hst => simp_all [WinReg.offset]
  | _ => simp at ht

theorem InitNext.regWrite (h : InitNext s t) (ht : t.trace = s.trace ++ [.regWrite off v]) :
    off = offSr ∧ s.st = .iWrsr ∧ v = clearErrors s.x.sr := by
  cases h with
  | wrsr hst => simp_all [WinReg.offset]
  | _ => simp at ht

theorem ReadNext.regRead (h : ReadNext n wait s t) (ht : t.trace = s.trace ++ [.regRead off v]) :
    (off = offCr ∧ s.st = .rRdcr) ∨ (off = offSr ∧ (s.st = .rRdsr ∨ s.st = .rPoll)) ∨
      (off = offDr ∧ s.st = .rRddr) := by
  cases h with
  | rdcr hst | rdsr hst | poll hst | rddr hst => simp_all [WinReg.offset]
  | _ => simp at ht

theorem ReadNext.regWrite (h : ReadNext n wait s t) (ht : t.trace = s.trace ++ [.regWrite off v]) :
    off = offCr ∧ ((s.st = .rWrcr ∧ v = withEnable s.x.crSaved) ∨ (s.st = .rRestore ∧ v = s.x.crSaved)) := by
  cases h with
  | wrcr hst | restore hst => simp_all [WinReg.offset]
  | _ => simp at ht

theorem CleanupNext.no_window_event (h : CleanupNext s t) :
    t.trace ≠ s.trace ++ [.regRead off v] ∧ t.trace ≠ s.trace ++ [.regWrite off v] := by
  cases h <;> simp

end Events

/-! ### Construction -/

/-- The free values of the open parameters are shaped so that the parameter table's constraints hold
(spec/00_scope.md R7, R9; log entry 3). -/
theorem config_params_ok : Config.params.Ok := by
  set w := Config.freeAddrWidth with hw
  have hpow : 2 ^ (w + 4) = 4 * 2 ^ (w + 2) := by ring
  have htop : 4 ≤ 2 ^ (w + 2) := by
    have := Nat.one_le_two_pow (n := w)
    rw [pow_add]
    omega
  have hbase : Config.freeBase % (2 ^ (w + 2) - 2) < 2 ^ (w + 2) - 2 := Nat.mod_lt _ (by omega)
  refine ⟨⟨Nat.mul_mod_right _ _, ?_⟩, Nat.le_add_left _ _⟩
  simp only [Config.params, ← hw]
  omega

/-! ### The masks, bit by bit -/

theorem maskDrdy_eq_twoPow : maskDrdy = BitVec.twoPow 32 0 := by decide
theorem maskEn_eq_twoPow : maskEn = BitVec.twoPow 32 2 := by decide
theorem maskErr_eq_twoPow : maskErr = BitVec.twoPow 32 5 ||| BitVec.twoPow 32 6 := by decide

/-- Data-ready is bit 0 of SR (spec/10_state.md R32). -/
theorem getLsbD_maskDrdy (i : Nat) : maskDrdy.getLsbD i = decide (i = 0) := by
  simp [maskDrdy_eq_twoPow, BitVec.getLsbD_twoPow, eq_comm]

/-- The error bits are bits 5 and 6 of SR (spec/10_state.md R32). -/
theorem getLsbD_maskErr (i : Nat) : maskErr.getLsbD i = decide (i = 5 ∨ i = 6) := by
  simp [maskErr_eq_twoPow, BitVec.getLsbD_twoPow, eq_comm]

theorem and_maskDrdy_eq_zero {w : Word} : w &&& maskDrdy = 0 ↔ w.getLsbD 0 = false := by
  rw [maskDrdy_eq_twoPow, BitVec.and_twoPow]
  cases w.getLsbD 0 <;> decide

/-- The generator's enable is bit 2 of CR (spec/10_state.md R31). -/
theorem and_maskEn_ne_zero {w : Word} : w &&& maskEn ≠ 0 ↔ w.getLsbD 2 = true := by
  rw [maskEn_eq_twoPow, BitVec.and_twoPow]
  cases w.getLsbD 2 <;> decide

/-! ### The reference peripheral, bit by bit -/

/-- An error bit survives a write only where the written bit is 1; every other bit survives (spec/10_state.md R44). -/
theorem getLsbD_srAfterWrite (old v : Word) (i : Nat) :
    (srAfterWrite old v).getLsbD i = (old.getLsbD i && (v.getLsbD i || decide (i ≠ 5 ∧ i ≠ 6))) := by
  by_cases hi : i < 32
  · simp only [srAfterWrite, BitVec.getLsbD_and, BitVec.getLsbD_or, BitVec.getLsbD_not, getLsbD_maskErr, hi]
    simp
  · simp [BitVec.getLsbD_of_ge _ i (Nat.le_of_not_lt hi)]

/-- The same as R44 writes it: a kept error bit is set in both words. -/
theorem getLsbD_srAfterWrite_eq_ite (old v : Word) (i : Nat) :
    (srAfterWrite old v).getLsbD i = if i = 5 ∨ i = 6 then old.getLsbD i && v.getLsbD i else old.getLsbD i := by
  rw [getLsbD_srAfterWrite]
  by_cases h5 : i = 5 <;> by_cases h6 : i = 6 <;> simp [h5, h6]

/-- Clearing data-ready clears bit 0 alone (spec/10_state.md R42). -/
theorem getLsbD_clear_drdy (sr : Word) (i : Nat) :
    (sr &&& ~~~maskDrdy).getLsbD i = (sr.getLsbD i && decide (i ≠ 0)) := by
  by_cases hi : i < 32
  · simp only [BitVec.getLsbD_and, BitVec.getLsbD_not, getLsbD_maskDrdy, hi]
    simp
  · simp [BitVec.getLsbD_of_ge _ i (Nat.le_of_not_lt hi)]

/-- A read of DR with data-ready set takes the completed word (spec/10_state.md R42). -/
theorem refRead_dr_ready {e : Env} (h : e.win.sr.getLsbD 0 = true) :
    refRead e .dr = (e.win.dr, { e with win := { e.win with sr := e.win.sr &&& ~~~maskDrdy } }) := by
  have hne : e.win.sr &&& maskDrdy ≠ 0 := by rw [Ne, and_maskDrdy_eq_zero, h]; decide
  simp only [refRead, if_pos hne]

/-- A read of DR with data-ready clear is a draw and leaves the registers alone (spec/10_state.md R33; log entry 17). -/
theorem refRead_dr_empty {e : Env} (h : e.win.sr.getLsbD 0 = false) :
    refRead e .dr = (drawWord e .dr, afterDraw e .dr) := by
  have heq : e.win.sr &&& maskDrdy = 0 := and_maskDrdy_eq_zero.2 h
  simp only [refRead, if_neg (not_not.2 heq)]

/-- A word is completed only by an active generator with the last word consumed, and then sets data-ready
(spec/10_state.md R40 to R42). -/
theorem periphAct_complete {v : Word} {w w' : Window} (h : periphAct (.complete v) w = some w') :
    w.cr.getLsbD 2 = true ∧ w.sr.getLsbD 0 = false ∧ w' = { w with dr := v, sr := w.sr ||| maskDrdy } := by
  simp only [periphAct] at h
  split at h
  · rename_i hc
    obtain ⟨hen, hdrdy⟩ := hc
    cases h
    exact ⟨and_maskEn_ne_zero.1 hen, and_maskDrdy_eq_zero.1 hdrdy, rfl⟩
  · cases h

/-! ### The trusted environment -/

/-- A scripted answer is the answer of the trusted environment (spec/10_state.md R47). -/
theorem envRead_drawn {e : Env} {r : WinReg} {v : Word} {rest : List Word} (hk : e.kind = .drawn)
    (ha : answersFor e r = v :: rest) : (envRead e r).1 = v ∧ answersFor (envRead e r).2 r = rest := by
  have hread : envRead e r = drawnRead e r := by simp only [envRead, hk]
  rw [hread]
  refine ⟨by simp [drawnRead, drawWord, ha], ?_⟩
  cases r <;> simp_all [drawnRead, afterDraw, dropAnswer, answersFor]

end Sys2Proof.Machine
end

section
/-! SUPPORT. The invariant in five parts, each kept by every step: what is stored, the flags and the clock, READ's
counters and status word, and the unrecognised bits of the reference peripheral (spec/10_state.md sections 1, 2 and 4,
spec/41_read.md sections 2, 3 and 6). -/

namespace Sys2Proof.Safety

open Sys2Proof.Machine

/-! ### Words within a mask -/

/-- A word has no bit outside a mask: bit by bit. -/
theorem and_not_eq_zero_iff {a m : Word} : a &&& ~~~m = 0 ↔ ∀ i, a.getLsbD i = true → m.getLsbD i = true := by
  constructor
  · intro h i hi
    have hlt : i < 32 := BitVec.lt_of_getLsbD hi
    have hbit : (a &&& ~~~m).getLsbD i = false := by rw [h]; exact BitVec.getLsbD_zero
    simpa [BitVec.getLsbD_and, BitVec.getLsbD_not, hi, hlt, -BitVec.getLsbD_eq_getElem] using hbit
  · intro h
    refine BitVec.eq_of_getLsbD_eq fun i hi => ?_
    rw [BitVec.getLsbD_and, BitVec.getLsbD_not, BitVec.ofNat_eq_ofNat, BitVec.getLsbD_zero]
    cases ha : a.getLsbD i with
    | false => rfl
    | true => simp [h i ha]

theorem or_within {a b m : Word} (ha : a &&& ~~~m = 0) (hb : b &&& ~~~m = 0) : (a ||| b) &&& ~~~m = 0 := by
  rw [and_not_eq_zero_iff] at *
  intro i hi
  rw [BitVec.getLsbD_or, Bool.or_eq_true] at hi
  exact hi.elim (ha i) (hb i)

theorem and_within {a m : Word} (b : Word) (ha : a &&& ~~~m = 0) : (a &&& b) &&& ~~~m = 0 := by
  rw [and_not_eq_zero_iff] at *
  intro i hi
  rw [BitVec.getLsbD_and, Bool.and_eq_true] at hi
  exact ha i hi.1

/-! ### The reference peripheral sets named bits only -/

theorem NamedBitsOnly.periphAct {a : PeriphAct} {w w' : Window} (h : NamedBitsOnly w)
    (ha : periphAct a w = some w') : NamedBitsOnly w' := by
  obtain ⟨hcr, hsr⟩ := h
  cases a with
  | complete v =>
    obtain ⟨-, -, rfl⟩ := periphAct_complete ha
    exact ⟨hcr, or_within hsr (by decide)⟩
  | latchClock | latchSeed =>
    cases ha
    exact ⟨hcr, or_within hsr (by decide)⟩

theorem NamedBitsOnly.ownMoves {w w' : Window} (h : NamedBitsOnly w) (hm : OwnMoves w w') : NamedBitsOnly w' := by
  induction hm with
  | none => exact h
  | move a w w' w'' ha _ ih => exact ih (h.periphAct ha)

/-- So do its moves before a transaction. -/
theorem NamedBitsOnly.periphTurn {e : Env} (h : NamedBitsOnly e.win) : NamedBitsOnly (periphTurn e).win :=
  h.ownMoves (runMoves_ownMoves _ _)

/-- A read clears data-ready or nothing (spec/10_state.md R42). -/
theorem NamedBitsOnly.envRead {e : Env} (r : WinReg) (hk : e.kind = .reference) (h : NamedBitsOnly e.win) :
    NamedBitsOnly (envRead e r).2.win := by
  have hturn := h.periphTurn
  simp only [Machine.envRead, hk]
  cases r with
  | cr | sr => exact hturn
  | dr =>
    cases hd : (Machine.periphTurn e).win.sr.getLsbD 0 with
    | false => rw [refRead_dr_empty hd]; exact hturn
    | true => rw [refRead_dr_ready hd]; exact ⟨hturn.1, and_within _ hturn.2⟩

/-- A write stores the word in CR, and clears bits of SR (spec/10_state.md R44, R45). -/
theorem NamedBitsOnly.envWrite {e : Env} (r : WinReg) {v : Word} (hk : e.kind = .reference) (h : NamedBitsOnly e.win)
    (hv : r = .cr → v &&& ~~~knownCr = 0) : NamedBitsOnly (envWrite e r v).win := by
  have hturn := h.periphTurn
  simp only [Machine.envWrite, hk]
  cases r with
  | cr => exact ⟨hv rfl, hturn.2⟩
  | sr => exact ⟨hturn.1, and_within _ hturn.2⟩
  | dr => exact hturn

end Sys2Proof.Safety

namespace Sys2Proof.Machine

open Sys2Proof.Safety

/-! ### The five parts of the invariant -/

/-- What is stored is well formed: parameters, buffers, the poll count (spec/00_scope.md R7, spec/10_state.md R21,
R36). -/
structure StorageFits (s : State) : Prop where
  cfgOk : s.cfg.Ok
  bufWf : s.buf.bytes.wf
  bufIn : ∀ c ∈ s.buf.bytes, c.1 < s.buf.len
  pendingWf : ∀ p ∈ s.pending, p.buffer.wf
  tmoLe : s.x.tmo ≤ s.cfg.tPoll

/-- The flags and the clock's two bits fit the FSM state (spec/10_state.md R22, R46). -/
structure LifecycleFits (s : State) : Prop where
  preparedFits : ∀ b, preparedIn s.st = some b → s.prepared = b
  clkPreparedFits : s.env.clkPrepared = (s.prepared || preparing s.st)
  clkEnabledFits : s.env.clkEnabled = clockOn s.st
  hwerrFits : mayHaveError s.st = false → s.hwerr = false

/-- READ's counters (spec/41_read.md R125, R137). -/
structure CountersFit (s : State) : Prop where
  lenFits : family s.st = some .read → s.buf.len < 2 ^ 29
  counters : family s.st = some .read → s.x.cnt.toNat + s.x.rem.toNat = s.buf.len
  cntAligned : family s.st = some .read → s.x.cnt.toNat % 4 = 0
  room : roomLeft s.st = true → 4 ≤ s.x.rem.toNat

/-- READ's status word has led where it says (spec/41_read.md R126 to R129, R143). -/
structure StatusFits (s : State) : Prop where
  polling : s.st = .rPoll → 1 ≤ s.x.tmo ∧ s.x.wait = true
  errorSeen : s.st = .rHwerr → nextOf s.x.sr = .rHwerr
  dataSeen : s.st = .rRddr ∨ s.st = .rStore → nextOf s.x.sr = .rRddr

/-- The reference peripheral has no unrecognised bit set, nor has a word the block may write to its CR
(spec/10_state.md R47; log entry 19). -/
structure ReferenceFits (s : State) : Prop where
  window : s.env.kind = .reference → NamedBitsOnly s.env.win
  saved : s.env.kind = .reference → savedCr s.st = true → s.x.crSaved &&& ~~~knownCr = 0

section Parts
variable {s : State}

theorem storageFits_of_inv (h : MachineInv s) : StorageFits s := ⟨h.cfgOk, h.bufWf, h.bufIn, h.pendingWf, h.tmoLe⟩

theorem lifecycleFits_of_inv (h : MachineInv s) : LifecycleFits s :=
  ⟨h.preparedFits, h.clkPreparedFits, h.clkEnabledFits, h.hwerrFits⟩

theorem countersFit_of_inv (h : MachineInv s) : CountersFit s := ⟨h.lenFits, h.counters, h.cntAligned, h.room⟩

theorem statusFits_of_inv (h : MachineInv s) : StatusFits s := ⟨h.polling, h.errorSeen, h.dataSeen⟩

theorem referenceFits_of_inv (h : MachineInv s) : ReferenceFits s := ⟨fun hk => ⟨h.refCr hk, h.refSr hk⟩, h.refSaved⟩

theorem machineInv_of_parts (hs : StorageFits s) (hl : LifecycleFits s) (hc : CountersFit s) (ht : StatusFits s)
    (hr : ReferenceFits s) : MachineInv s :=
  { hs, hl, hc, ht with
    refSr := fun hk => (hr.window hk).2
    refCr := fun hk => (hr.window hk).1
    refSaved := hr.saved }

end Parts

end Sys2Proof.Machine
end

section
/-! SUPPORT. Every step keeps each of the five parts of the invariant. -/

namespace Sys2Proof.Machine

open Sys2Proof.Safety

/-! ### Where a status word or a store leads: what holds of each target holds of the next state -/

theorem nextOf_elim {P : Fsm → Prop} (v : Word) (he : P .rHwerr) (hz : P .rRestore) (hd : P .rRddr) :
    P (nextOf v) := by
  rcases nextOf_cases v with h | h | h <;> rw [h] <;> assumption

theorem afterFirstRead_elim {P : Fsm → Prop} (wait : Bool) (v : Word) (hp : P .rPoll) (he : P .rHwerr)
    (hz : P .rRestore) (hd : P .rRddr) : P (afterFirstRead wait v) := by
  rcases afterFirstRead_cases wait v with ⟨h, -⟩ | ⟨h, -⟩ <;> rw [h]
  · exact hp
  · exact nextOf_elim v he hz hd

theorem afterReRead_elim {P : Fsm → Prop} (tmo : Nat) (v : Word) (hp : P .rPoll) (he : P .rHwerr)
    (hz : P .rRestore) (hd : P .rRddr) : P (afterReRead tmo v) := by
  rcases afterReRead_cases tmo v with ⟨h, -⟩ | ⟨h, -⟩ <;> rw [h]
  · exact hp
  · exact nextOf_elim v he hz hd

theorem afterStore_elim {P : Fsm → Prop} (rem : Len) (hr : P .rRdsr) (hz : P .rRestore) : P (afterStore rem) := by
  unfold afterStore
  split <;> assumption

theorem readEntry_elim {P : Fsm → Prop} (n : Nat) (hl : P .rClken) (hs : P .rRet) : P (readEntry n) := by
  unfold readEntry
  split <;> assumption

/-- A decoded READ has a length of 29 bits (spec/30_encoding.md R91). -/
theorem decode_read_lt {w : Word} {n : Nat} {wait : Bool} (h : decode w = .ok (.read n wait)) : n < 2 ^ 29 := by
  unfold decode at h
  split_ifs at h
  · cases h
  · cases h
    exact BitVec.isLt _
  · cases h

/-! ### What is stored -/

theorem InitNext.tmo_le {s t : State} (h : InitNext s t) (hs : StorageFits s) : t.x.tmo ≤ t.cfg.tPoll := by
  rw [h.x_eq, h.cfg_eq]
  exact hs.tmoLe

/-- The budget is loaded whole and only counted down (spec/41_read.md R127, R128). -/
theorem ReadNext.tmo_le {n : Nat} {wait : Bool} {s t : State} (h : ReadNext n wait s t) (hs : StorageFits s) :
    t.x.tmo ≤ t.cfg.tPoll := by
  cases h with
  | rdsr =>
    show (if _ then s.cfg.tPoll else s.x.tmo) ≤ s.cfg.tPoll
    split
    · exact Nat.le_refl _
    · exact hs.tmoLe
  | poll => exact Nat.le_trans (Nat.sub_le _ _) hs.tmoLe
  | _ => exact hs.tmoLe

theorem presentedBytes_wf {s : State} (h : ∀ p ∈ s.pending, p.buffer.wf) : (presentedBytes s).wf := by
  unfold presentedBytes
  split
  · exact List.Pairwise.nil
  · rename_i p rest hp
    exact h p (by simp [hp])

/-- The buffer stays in canonical form and its cells inside it: cut at Accept, written with room (spec/10_state.md
R36). -/
theorem ReadNext.buf_fits {n : Nat} {wait : Bool} {s t : State} (h : ReadNext n wait s t) (hs : StorageFits s) :
    t.buf.bytes.wf ∧ ∀ c ∈ t.buf.bytes, c.1 < t.buf.len := by
  cases h with
  | accept => exact hostBuffer_wf n _ (presentedBytes_wf hs.pendingWf)
  | store _ hroom =>
    refine ⟨writeWord_wf _ _ _ _ hs.bufWf, fun c hc => ?_⟩
    rcases mem_writeWord _ _ _ _ _ hc with hlt | hold
    · exact Nat.lt_of_lt_of_le hlt hroom
    · exact hs.bufIn c hold
  | _ => exact ⟨hs.bufWf, hs.bufIn⟩

theorem StorageFits.exec {i : Instr} {s t : State} (h : exec i s = .next t) (hs : StorageFits s) : StorageFits t := by
  have hcfg : t.cfg.Ok := exec_cfg h ▸ hs.cfgOk
  have hpending : ∀ p ∈ t.pending, p.buffer.wf := fun p hp => hs.pendingWf p (exec_pending_subset h hp)
  cases i with
  | init =>
    have hn := execInit_next h
    exact ⟨hcfg, hn.buf_eq ▸ hs.bufWf, hn.buf_eq ▸ hs.bufIn, hpending, hn.tmo_le hs⟩
  | read n wait =>
    have hn := execRead_next h
    obtain ⟨hwf, hin⟩ := hn.buf_fits hs
    exact ⟨hcfg, hwf, hin, hpending, hn.tmo_le hs⟩
  | cleanup =>
    have hn := execCleanup_next h
    exact ⟨hcfg, hn.buf_eq ▸ hs.bufWf, hn.buf_eq ▸ hs.bufIn, hpending, by rw [hn.x_eq, hn.cfg_eq]; exact hs.tmoLe⟩

/-! ### The flags and the clock -/

/-- The table of the FSM states asks nothing more of the flags and the clock in `q'` than in `q`. -/
abbrev SamePower (q q' : Fsm) : Prop :=
  (preparedIn q' = none ∨ preparedIn q' = preparedIn q) ∧ preparing q' = preparing q ∧ clockOn q' = clockOn q ∧
    (mayHaveError q' = false → mayHaveError q = false)

/-- A step that leaves the flags and the clock alone, between FSM states that ask the same of them. -/
theorem LifecycleFits.of_same {s t : State} {q q' : Fsm} (hl : LifecycleFits s) (hst : s.st = q) (hst' : t.st = q')
    (hq : SamePower q q') (hp : t.prepared = s.prepared) (hcp : t.env.clkPrepared = s.env.clkPrepared)
    (hce : t.env.clkEnabled = s.env.clkEnabled) (hh : mayHaveError q' = false → t.hwerr = s.hwerr) :
    LifecycleFits t := by
  subst hst hst'
  obtain ⟨hprep, hpreparing, hclock, herr⟩ := hq
  refine ⟨fun b hb => ?_, ?_, ?_, fun hm => ?_⟩
  · rcases hprep with hnone | hsame
    · rw [hnone] at hb
      cases hb
    · rw [hp]
      exact hl.preparedFits b (hsame ▸ hb)
  · rw [hcp, hp, hpreparing]
    exact hl.clkPreparedFits
  · rw [hce, hclock]
    exact hl.clkEnabledFits
  · rw [hh hm]
    exact hl.hwerrFits (herr hm)

/-- Accept leads to a state with `prepared` as it was, the clock off and `hwerr` clear (spec/30_encoding.md R93). -/
theorem LifecycleFits.of_accept {s t : State} {q' : Fsm} (hl : LifecycleFits s) (hst : s.st = .idle) (hst' : t.st = q')
    (hq : preparedIn q' = some s.prepared ∧ preparing q' = false ∧ clockOn q' = false)
    (hp : t.prepared = s.prepared) (he : t.env = s.env) (hh : t.hwerr = false) : LifecycleFits t := by
  subst hst'
  obtain ⟨hprep, hpreparing, hclock⟩ := hq
  refine ⟨fun b hb => ?_, ?_, ?_, fun _ => hh⟩
  · rw [hprep] at hb
    rw [hp]
    exact Option.some.inj hb
  · rw [he, hp, hpreparing, hl.clkPreparedFits, hst]
    rfl
  · rw [he, hclock, hl.clkEnabledFits, hst]
    rfl

theorem InitNext.lifecycle {s t : State} (h : InitNext s t) (hl : LifecycleFits s) : LifecycleFits t := by
  cases h with
  | accept hst hp => exact hl.of_accept hst (goto_st _ _) (by rw [hp]; decide) rfl rfl rfl
  | prepOk hst ha =>
    have hprep : s.prepared = false := hl.preparedFits _ (by rw [hst]; rfl)
    have herr : s.hwerr = false := hl.hwerrFits (by rw [hst]; rfl)
    refine ⟨fun b hb => hprep.trans (Option.some.inj hb), ?_, ?_, fun _ => herr⟩
    · simp [ha, hprep, preparing]
    · simp [hl.clkEnabledFits, hst, clockOn]
  | prepFail hst e ha => exact hl.of_same hst (goto_st _ _) (by decide) rfl (by simp [ha]) rfl (fun _ => rfl)
  | fail hst => exact hl.of_same hst (ret_st _ _) (by decide) rfl rfl rfl (fun _ => rfl)
  | rdsr hst => exact hl.of_same hst (goto_st _ _) (by decide) rfl (by simp) (by simp) (fun _ => rfl)
  | wrsr hst =>
    have herr : s.hwerr = false := hl.hwerrFits (by rw [hst]; rfl)
    refine ⟨fun b hb => Option.some.inj hb, ?_, ?_, fun _ => herr⟩
    · simp [hl.clkPreparedFits, hst, preparing]
    · simp [hl.clkEnabledFits, hst, clockOn]
  | ret hst => exact hl.of_same hst (ret_st _ _) (by decide) rfl rfl rfl (fun _ => rfl)

theorem ReadNext.lifecycle {n : Nat} {wait : Bool} {s t : State} (h : ReadNext n wait s t) (hl : LifecycleFits s) :
    LifecycleFits t := by
  cases h with
  | accept hst hp =>
    refine hl.of_accept hst (goto_st _ _) ?_ rfl rfl rfl
    rw [hp]
    exact readEntry_elim (P := fun q => preparedIn q = some true ∧ preparing q = false ∧ clockOn q = false) n
      (by decide) (by decide)
  | clken hst =>
    have hprep : s.prepared = true := hl.preparedFits _ (by rw [hst]; rfl)
    have herr : s.hwerr = false := hl.hwerrFits (by rw [hst]; rfl)
    refine ⟨fun b hb => hprep.trans (Option.some.inj hb), ?_, rfl, fun _ => herr⟩
    simp [hl.clkPreparedFits, hprep]
  | rdcr hst | wrcr hst | rddr hst | restore hst =>
    exact hl.of_same hst (goto_st _ _) (by decide) rfl (by simp) (by simp) (fun _ => rfl)
  | rdsr hst =>
    refine hl.of_same hst (goto_st _ _) ?_ rfl (by simp) (by simp) (fun _ => rfl)
    exact afterFirstRead_elim (P := SamePower .rRdsr) _ _ (by decide) (by decide) (by decide) (by decide)
  | poll hst =>
    refine hl.of_same hst (goto_st _ _) ?_ rfl (by simp) (by simp) (fun _ => rfl)
    exact afterReRead_elim (P := SamePower .rPoll) _ _ (by decide) (by decide) (by decide) (by decide)
  | hwerr hst => exact hl.of_same hst (goto_st _ _) (by decide) rfl rfl rfl nofun
  | store hst =>
    refine hl.of_same hst (goto_st _ _) ?_ rfl rfl rfl (fun _ => rfl)
    exact afterStore_elim (P := SamePower .rStore) _ (by decide) (by decide)
  | clkdis hst =>
    have hprep : s.prepared = true := hl.preparedFits _ (by rw [hst]; rfl)
    refine ⟨fun b hb => hprep.trans (Option.some.inj hb), ?_, rfl, nofun⟩
    simp [hl.clkPreparedFits, hprep]
  | retTimeout hst | retOk hst => exact hl.of_same hst (ret_st _ _) (by decide) rfl rfl rfl (fun _ => rfl)

theorem CleanupNext.lifecycle {s t : State} (h : CleanupNext s t) (hl : LifecycleFits s) : LifecycleFits t := by
  cases h with
  | accept hst hp => exact hl.of_accept hst (goto_st _ _) (by rw [hp]; decide) rfl rfl rfl
  | unprep hst =>
    have herr : s.hwerr = false := hl.hwerrFits (by rw [hst]; rfl)
    refine ⟨fun b hb => Option.some.inj hb, rfl, ?_, fun _ => herr⟩
    simp [hl.clkEnabledFits, hst, clockOn]
  | ret hst => exact hl.of_same hst (ret_st _ _) (by decide) rfl rfl rfl (fun _ => rfl)

theorem LifecycleFits.exec {i : Instr} {s t : State} (h : exec i s = .next t) (hl : LifecycleFits s) :
    LifecycleFits t := by
  cases i with
  | init => exact (execInit_next h).lifecycle hl
  | read n wait => exact (execRead_next h).lifecycle hl
  | cleanup => exact (execCleanup_next h).lifecycle hl

/-! ### Outside READ -/

theorem InitNext.outside_read {s t : State} (h : InitNext s t) : family t.st ≠ some .read := by
  cases h <;> nofun

theorem CleanupNext.outside_read {s t : State} (h : CleanupNext s t) : family t.st ≠ some .read := by
  cases h <;> nofun

theorem family_of_roomLeft {q : Fsm} (h : roomLeft q = true) : family q = some .read := by
  cases q with
  | rClken | rRdcr | rWrcr | rRdsr | rPoll | rHwerr | rRddr | rStore => rfl
  | _ => cases h

theorem family_of_savedCr {q : Fsm} (h : savedCr q = true) : family q = some .read := by
  cases q with
  | rWrcr | rRdsr | rPoll | rHwerr | rRddr | rStore | rRestore => rfl
  | _ => cases h

/-- The counters promise nothing outside READ. -/
theorem CountersFit.of_outside {t : State} (h : family t.st ≠ some .read) : CountersFit t where
  lenFits hf := absurd hf h
  counters hf := absurd hf h
  cntAligned hf := absurd hf h
  room hr := absurd (family_of_roomLeft hr) h

/-! ### READ's counters -/

/-- The counters promise nothing more in `q'` than in `q`. -/
abbrev SameCounters (q q' : Fsm) : Prop :=
  (family q' = some .read → family q = some .read) ∧ (roomLeft q' = true → roomLeft q = true)

/-- A step that leaves the counters and the buffer's length alone. -/
theorem CountersFit.of_same {s t : State} {q q' : Fsm} (hc : CountersFit s) (hst : s.st = q) (hst' : t.st = q')
    (hq : SameCounters q q') (hlen : t.buf.len = s.buf.len) (hcnt : t.x.cnt = s.x.cnt)
    (hrem : t.x.rem = s.x.rem) : CountersFit t := by
  subst hst hst'
  obtain ⟨hfamily, hroom⟩ := hq
  constructor
  · exact fun hf => hlen ▸ hc.lenFits (hfamily hf)
  · exact fun hf => by rw [hlen, hcnt, hrem]; exact hc.counters (hfamily hf)
  · exact fun hf => hcnt ▸ hc.cntAligned (hfamily hf)
  · exact fun hr => hrem ▸ hc.room (hroom hr)

/-- At Accept `cnt` is 0 and `rem` is the length (spec/41_read.md R121). -/
theorem CountersFit.of_accept {t : State} {n : Nat} (hn : n < 2 ^ 29) (hst : t.st = readEntry n) (hlen : t.buf.len = n)
    (hcnt : t.x.cnt = 0) (hrem : t.x.rem = BitVec.ofNat 29 n) : CountersFit t := by
  have hremn : t.x.rem.toNat = n := by rw [hrem, BitVec.toNat_ofNat, Nat.mod_eq_of_lt hn]
  have hcnt0 : t.x.cnt.toNat = 0 := by rw [hcnt]; rfl
  refine ⟨fun _ => hlen ▸ hn, fun _ => by omega, fun _ => by omega, fun hr => ?_⟩
  rw [hremn]
  by_contra hshort
  rw [hst, readEntry, if_neg hshort] at hr
  cases hr

/-- A store moves 4 bytes from `rem` to `cnt`; the loop goes on only with room for another word (spec/41_read.md R125,
R133). -/
theorem CountersFit.of_store {s t : State} (hc : CountersFit s) (hst : s.st = .rStore)
    (hst' : t.st = afterStore t.x.rem) (hlen : t.buf.len = s.buf.len) (hcnt : t.x.cnt = s.x.cnt + 4)
    (hrem : t.x.rem = s.x.rem - 4) : CountersFit t := by
  have hfam : family s.st = some .read := by rw [hst]; rfl
  have hlt := hc.lenFits hfam
  have hsum := hc.counters hfam
  have hal := hc.cntAligned hfam
  have hroom := hc.room (by rw [hst]; rfl)
  have hremn : t.x.rem.toNat = s.x.rem.toNat - 4 := by
    rw [hrem]
    exact BitVec.toNat_sub_of_le (BitVec.le_def.2 hroom)
  have hcntn : t.x.cnt.toNat = s.x.cnt.toNat + 4 := by
    rw [hcnt, BitVec.toNat_add]
    exact Nat.mod_eq_of_lt (show s.x.cnt.toNat + 4 < 2 ^ 29 by omega)
  refine ⟨fun _ => hlen ▸ hlt, fun _ => by omega, fun _ => by omega, fun hr => ?_⟩
  by_contra hshort
  have hnle : ¬ (4 ≤ t.x.rem) := fun hle => hshort (BitVec.le_def.1 hle)
  rw [hst', afterStore, if_neg hnle] at hr
  cases hr

theorem ReadNext.counters {n : Nat} {wait : Bool} {s t : State} (h : ReadNext n wait s t)
    (hn : s.st = .idle → n < 2 ^ 29) (hc : CountersFit s) : CountersFit t := by
  cases h with
  | accept hst => exact .of_accept (hn hst) rfl rfl rfl rfl
  | store hst => exact hc.of_store hst rfl rfl rfl rfl
  | clken hst | rdcr hst | wrcr hst | hwerr hst | rddr hst | restore hst | clkdis hst =>
    exact hc.of_same hst (goto_st _ _) (by decide) rfl rfl rfl
  | rdsr hst =>
    refine hc.of_same hst (goto_st _ _) ?_ rfl rfl rfl
    exact afterFirstRead_elim (P := SameCounters .rRdsr) _ _ (by decide) (by decide) (by decide) (by decide)
  | poll hst =>
    refine hc.of_same hst (goto_st _ _) ?_ rfl rfl rfl
    exact afterReRead_elim (P := SameCounters .rPoll) _ _ (by decide) (by decide) (by decide) (by decide)
  | retTimeout | retOk => exact .of_outside nofun

/-! ### READ's status word -/

/-- The FSM states that rest on the status word: the poll, the error signal and the data path. -/
abbrev restsOnStatus (q : Fsm) : Prop := q = .rPoll ∨ q = .rHwerr ∨ q = .rRddr ∨ q = .rStore

theorem StatusFits.of_other {t : State} {q : Fsm} (hst : t.st = q) (hq : ¬ restsOnStatus q) : StatusFits t := by
  subst hst
  obtain ⟨hpoll, hhwerr, hrddr, hstore⟩ : t.st ≠ .rPoll ∧ t.st ≠ .rHwerr ∧ t.st ≠ .rRddr ∧ t.st ≠ .rStore := by
    simpa [restsOnStatus] using hq
  exact ⟨fun h => absurd h hpoll, fun h => absurd h hhwerr, fun h => h.elim (absurd · hrddr) (absurd · hstore)⟩

theorem StatusFits.of_outside {t : State} (h : family t.st ≠ some .read) : StatusFits t := by
  refine .of_other rfl fun hm => h ?_
  rcases hm with hm | hm | hm | hm <;> rw [hm] <;> rfl

/-- A status word leads where `nextOf` says (spec/41_read.md R129). -/
theorem StatusFits.of_next {t : State} (hst : t.st = nextOf t.x.sr) : StatusFits t := by
  have hpoll : nextOf t.x.sr ≠ .rPoll := nextOf_elim (P := (· ≠ .rPoll)) _ (by decide) (by decide) (by decide)
  have hstore : nextOf t.x.sr ≠ .rStore := nextOf_elim (P := (· ≠ .rStore)) _ (by decide) (by decide) (by decide)
  rw [← hst] at hpoll hstore
  exact ⟨fun h => absurd h hpoll, fun h => hst ▸ h, fun h => h.elim (fun hr => hst ▸ hr) (absurd · hstore)⟩

theorem StatusFits.of_poll {t : State} (hst : t.st = .rPoll) (htmo : 1 ≤ t.x.tmo) (hwait : t.x.wait = true) :
    StatusFits t :=
  ⟨fun _ => ⟨htmo, hwait⟩, fun h => absurd (hst.symm.trans h) nofun,
    fun h => h.elim (fun hr => absurd (hst.symm.trans hr) nofun) (fun hr => absurd (hst.symm.trans hr) nofun)⟩

theorem ReadNext.status {n : Nat} {wait : Bool} {s t : State} (h : ReadNext n wait s t) (hb : 1 ≤ s.cfg.tPoll)
    (hs : StatusFits s) : StatusFits t := by
  cases h with
  | rdsr hst =>
    rcases afterFirstRead_cases s.x.wait (envRead s.env .sr).1 with ⟨hgo, hzero⟩ | ⟨hgo, -⟩
    · refine .of_poll hgo ?_ hzero.2
      show 1 ≤ if _ then s.cfg.tPoll else s.x.tmo
      rwa [if_pos hzero]
    · exact .of_next hgo
  | poll hst =>
    rcases afterReRead_cases (s.x.tmo - 1) (envRead s.env .sr).1 with ⟨hgo, -, hleft⟩ | ⟨hgo, -⟩
    · exact .of_poll hgo (Nat.one_le_iff_ne_zero.2 hleft) (hs.polling hst).2
    · exact .of_next hgo
  | rddr hst => exact ⟨nofun, nofun, fun _ => hs.dataSeen (.inl hst)⟩
  | accept => exact .of_other (goto_st _ _) (readEntry_elim (P := (¬ restsOnStatus ·)) n (by decide) (by decide))
  | store => exact .of_other (goto_st _ _) (afterStore_elim (P := (¬ restsOnStatus ·)) _ (by decide) (by decide))
  | clken | rdcr | wrcr | hwerr | restore | clkdis => exact .of_other (goto_st _ _) (by decide)
  | retTimeout | retOk => exact .of_other (ret_st _ _) (by decide)

/-! ### The reference peripheral's unrecognised bits -/

/-- A step keeps them zero if the window does, and `cr_saved` is not a new word (spec/10_state.md R47). -/
theorem ReferenceFits.of_window {s t : State} (hr : ReferenceFits s) (hk : t.env.kind = s.env.kind)
    (hw : s.env.kind = .reference → NamedBitsOnly t.env.win)
    (hsaved : savedCr t.st = true → savedCr s.st = true ∧ t.x.crSaved = s.x.crSaved) : ReferenceFits t where
  window href := hw (hk ▸ href)
  saved href hst := by
    obtain ⟨hst', hcr⟩ := hsaved hst
    rw [hcr]
    exact hr.saved (hk ▸ href) hst'

theorem InitNext.reference {s t : State} (h : InitNext s t) (hr : ReferenceFits s) : ReferenceFits t := by
  refine hr.of_window h.env_kind_eq (fun hk => ?_) fun hsaved => absurd (family_of_savedCr hsaved) h.outside_read
  have hwin := hr.window hk
  cases h with
  | rdsr => exact hwin.envRead _ hk
  | wrsr => exact hwin.envWrite _ hk nofun
  | _ => exact hwin

/-- READ writes to CR the word it read there, with or without the enable bit (spec/10_state.md R35). -/
theorem ReadNext.window {n : Nat} {wait : Bool} {s t : State} (h : ReadNext n wait s t) (hr : ReferenceFits s)
    (hk : s.env.kind = .reference) : NamedBitsOnly t.env.win := by
  have hwin := hr.window hk
  cases h with
  | rdcr | rdsr | poll | rddr => exact hwin.envRead _ hk
  | wrcr hst => exact hwin.envWrite _ hk fun _ => or_within (hr.saved hk (by rw [hst]; rfl)) (by decide)
  | restore hst => exact hwin.envWrite _ hk fun _ => hr.saved hk (by rw [hst]; rfl)
  | _ => exact hwin

theorem ReadNext.reference {n : Nat} {wait : Bool} {s t : State} (h : ReadNext n wait s t) (hr : ReferenceFits s) :
    ReferenceFits t := by
  have hwindow := h.window hr
  have hkind := h.env_kind_eq
  cases h with
  | rdcr hst =>
    refine ⟨fun hk => hwindow (hkind ▸ hk), fun hk _ => ?_⟩
    have hks : s.env.kind = .reference := hkind ▸ hk
    show (envRead s.env .cr).1 &&& ~~~knownCr = 0
    rw [envRead_cr_value _ hks]
    exact (hr.window hks).1
  | accept =>
    refine hr.of_window hkind hwindow ?_
    exact readEntry_elim (P := fun q => savedCr q = true → _) n nofun nofun
  | clken | clkdis | restore | retTimeout | retOk => exact hr.of_window hkind hwindow nofun
  | wrcr hst | rdsr hst | poll hst | hwerr hst | rddr hst | store hst =>
    exact hr.of_window hkind hwindow fun _ => ⟨by rw [hst]; rfl, rfl⟩

theorem CleanupNext.reference {s t : State} (h : CleanupNext s t) (hr : ReferenceFits s) : ReferenceFits t :=
  hr.of_window h.env_kind_eq (fun hk => h.win_eq ▸ hr.window hk)
    fun hsaved => absurd (family_of_savedCr hsaved) h.outside_read

end Sys2Proof.Machine

namespace Sys2Proof.Safety

open Sys2Proof.Machine

/-! ### The invariant -/

/-- A step of a command keeps the invariant; READ's length is below `2^29` where it is latched (spec/41_read.md
R120). -/
theorem MachineInv.exec {i : Instr} {s t : State} (hinv : MachineInv s) (h : exec i s = .next t)
    (hlen : ∀ n wait, i = .read n wait → s.st = .idle → n < 2 ^ 29) : MachineInv t := by
  have hstorage := (storageFits_of_inv hinv).exec h
  have hlifecycle := (lifecycleFits_of_inv hinv).exec h
  have href := referenceFits_of_inv hinv
  cases i with
  | init =>
    have hn := execInit_next h
    have hout := hn.outside_read
    exact machineInv_of_parts hstorage hlifecycle (.of_outside hout) (.of_outside hout) (hn.reference href)
  | read n wait =>
    have hn := execRead_next h
    exact machineInv_of_parts hstorage hlifecycle (hn.counters (hlen n wait rfl) (countersFit_of_inv hinv))
      (hn.status hinv.cfgOk.2 (statusFits_of_inv hinv)) (hn.reference href)
  | cleanup =>
    have hn := execCleanup_next h
    have hout := hn.outside_read
    exact machineInv_of_parts hstorage hlifecycle (.of_outside hout) (.of_outside hout) (hn.reference href)

theorem MachineInv.step {s t : State} (hinv : MachineInv s) (h : step s = .next t) : MachineInv t := by
  rcases step_eq_next h with ⟨-, rfl⟩ | ⟨i, hfetch, hexec⟩
  · exact hinv
  · refine hinv.exec hexec fun n wait hi hidle => ?_
    obtain ⟨p, rest, -, hdecode⟩ := fetch_command_idle hidle hfetch
    exact decode_read_lt (hi ▸ hdecode)

end Sys2Proof.Safety
end

section
/-! SUPPORT. Runs with the reference peripheral as chains of its transactions, and the five environment properties of
such a chain (spec/10_state.md R40 to R45, R47, R48). -/

namespace Sys2Proof.Machine

open Sys2Proof.Safety

/-! ### What a step does on the window -/

/-- A step makes no transaction and leaves the registers alone, or is one read or one write of a register. -/
inductive WindowStep (s u : State) : Prop where
  | quiet (tr : List Event) (ht : u.trace = s.trace ++ tr) (hq : tr.filter onWindow = []) (hw : u.env.win = s.env.win)
  | read (r : WinReg) (ht : u.trace = s.trace ++ [.regRead r.offset (envRead s.env r).1])
      (he : u.env = (envRead s.env r).2)
  | write (r : WinReg) (v : Word) (hr : r ≠ .dr) (ht : u.trace = s.trace ++ [.regWrite r.offset v])
      (he : u.env = envWrite s.env r v)

theorem InitNext.windowStep {s u : State} (h : InitNext s u) : WindowStep s u := by
  cases h with
  | rdsr => exact .read .sr rfl rfl
  | wrsr => exact .write .sr _ nofun rfl rfl
  | accept | prepOk | prepFail | fail | ret => exact .quiet [_] rfl rfl rfl

theorem ReadNext.windowStep {n : Nat} {wait : Bool} {s u : State} (h : ReadNext n wait s u) : WindowStep s u := by
  cases h with
  | rdcr => exact .read .cr rfl rfl
  | rdsr | poll => exact .read .sr rfl rfl
  | rddr => exact .read .dr rfl rfl
  | wrcr | restore => exact .write .cr _ nofun rfl rfl
  | accept | clken | hwerr | store | clkdis | retTimeout | retOk => exact .quiet [_] rfl rfl rfl

theorem CleanupNext.windowStep {s u : State} (h : CleanupNext s u) : WindowStep s u := by
  cases h <;> exact .quiet [_] rfl rfl rfl

theorem windowStep_of_step {s u : State} (h : step s = .next u) : WindowStep s u := by
  rcases step_eq_next h with ⟨-, rfl⟩ | ⟨i, -, hexec⟩
  · exact .quiet [] (List.append_nil _).symm rfl rfl
  · cases i with
    | init => exact (execInit_next hexec).windowStep
    | read n wait => exact (execRead_next hexec).windowStep
    | cleanup => exact (execCleanup_next hexec).windowStep

/-- Every step only appends to the trace. -/
theorem WindowStep.trace {s u : State} (h : WindowStep s u) : ∃ tr, u.trace = s.trace ++ tr := by
  cases h with
  | quiet tr ht => exact ⟨tr, ht⟩
  | read r ht | write r v _ ht => exact ⟨_, ht⟩

end Sys2Proof.Machine

namespace Sys2Proof.Safety

open Sys2Proof.Machine

/-! ### One transaction with the reference peripheral -/

/-- What the reference peripheral does with a transaction: its event, and the registers found and left
(spec/10_state.md R42, R44, R45; spec/93_implementation_defined.md U3). -/
inductive RefTransaction : Transaction → Prop where
  | readCr (w : Window) : RefTransaction ⟨.regRead offCr w.cr, w, w⟩
  | readSr (w : Window) : RefTransaction ⟨.regRead offSr w.sr, w, w⟩
  | readDrReady (w : Window) (h : w.sr.getLsbD 0 = true) :
      RefTransaction ⟨.regRead offDr w.dr, w, { w with sr := w.sr &&& ~~~maskDrdy }⟩
  | readDrEmpty (w : Window) (v : Word) (h : w.sr.getLsbD 0 = false) : RefTransaction ⟨.regRead offDr v, w, w⟩
  | writeCr (w : Window) (v : Word) : RefTransaction ⟨.regWrite offCr v, w, { w with cr := v }⟩
  | writeSr (w : Window) (v : Word) : RefTransaction ⟨.regWrite offSr v, w, { w with sr := srAfterWrite w.sr v }⟩

theorem refTransaction_read {e : Env} (hk : e.kind = .reference) (r : WinReg) :
    RefTransaction ⟨.regRead r.offset (envRead e r).1, (periphTurn e).win, (envRead e r).2.win⟩ := by
  simp only [envRead, hk]
  cases r with
  | cr => exact .readCr _
  | sr => exact .readSr _
  | dr =>
    cases hd : (periphTurn e).win.sr.getLsbD 0 with
    | false => rw [refRead_dr_empty hd]; exact .readDrEmpty _ _ hd
    | true => rw [refRead_dr_ready hd]; exact .readDrReady _ hd

theorem refTransaction_write {e : Env} (hk : e.kind = .reference) {r : WinReg} (hr : r ≠ .dr) (v : Word) :
    RefTransaction ⟨.regWrite r.offset v, (periphTurn e).win, (envWrite e r v).win⟩ := by
  simp only [envWrite, hk]
  cases r with
  | cr => exact .writeCr _ _
  | sr => exact .writeSr _ _
  | dr => exact absurd rfl hr

/-! ### A run as a chain of transactions -/

/-- From registers `w` on, the peripheral makes moves of its own and then a transaction, again and again. -/
def RefChain (w : Window) (ts : List Transaction) : Prop :=
  match ts with
  | [] => True
  | t :: rest => OwnMoves w t.found ∧ RefTransaction t ∧ RefChain t.left rest

theorem refChain_of_windowStep {s u : State} {ts : List Transaction} (h : WindowStep s u)
    (hk : s.env.kind = .reference) (hts : RefChain u.env.win ts) : RefChain s.env.win (transactionOf s u ++ ts) := by
  have hown : OwnMoves s.env.win (periphTurn s.env).win := runMoves_ownMoves _ _
  cases h with
  | quiet tr ht hq hw =>
    rw [transactionOf_append ht, hq]
    exact hw ▸ hts
  | read r ht he =>
    rw [transactionOf_append ht]
    exact ⟨hown, he ▸ refTransaction_read hk r, hts⟩
  | write r v hr ht he =>
    rw [transactionOf_append ht]
    exact ⟨hown, he ▸ refTransaction_write hk hr v, hts⟩

theorem run_refChain {k : Nat} {s t : State} (hk : s.env.kind = .reference) (h : run k s = .next t) :
    RefChain s.env.win (transactions k s) := by
  induction k generalizing s with
  | zero => trivial
  | succ k ih =>
    rw [run_succ] at h
    obtain ⟨u, hstep, hrun⟩ := andThen_eq_next.1 h
    rw [transactions_next hstep]
    exact refChain_of_windowStep (windowStep_of_step hstep) hk (ih ((step_env_kind hstep).trans hk) hrun)

/-- The transactions of a run are its window events, in order. -/
theorem run_trace {k : Nat} {s t : State} (h : run k s = .next t) :
    ∃ tr, t.trace = s.trace ++ tr ∧ (transactions k s).map Transaction.event = tr.filter onWindow := by
  induction k generalizing s with
  | zero =>
    cases h
    exact ⟨[], (List.append_nil _).symm, rfl⟩
  | succ k ih =>
    rw [run_succ] at h
    obtain ⟨u, hstep, hrun⟩ := andThen_eq_next.1 h
    obtain ⟨tr, ht, hevents⟩ := ih hrun
    obtain ⟨first, hfirst⟩ := (windowStep_of_step hstep).trace
    refine ⟨first ++ tr, by rw [ht, hfirst, List.append_assoc], ?_⟩
    simp [transactions_next hstep, transactionOf_append hfirst, hevents, Function.comp_def]

/-- In a run from a state that meets the invariant every transaction finds and leaves named bits only. -/
theorem run_namedBitsOnly {k : Nat} {s t : State} (hk : s.env.kind = .reference) (hinv : MachineInv s)
    (h : run k s = .next t) : ∀ x ∈ transactions k s, NamedBitsOnly x.found ∧ NamedBitsOnly x.left := by
  induction k generalizing s with
  | zero => nofun
  | succ k ih =>
    rw [run_succ] at h
    obtain ⟨u, hstep, hrun⟩ := andThen_eq_next.1 h
    have hku : u.env.kind = .reference := (step_env_kind hstep).trans hk
    have hinvu : MachineInv u := hinv.step hstep
    intro x hx
    rw [transactions_next hstep, List.mem_append] at hx
    rcases hx with hx | hx
    · obtain ⟨e, -, rfl⟩ := List.mem_map.1 hx
      exact ⟨((referenceFits_of_inv hinv).window hk).periphTurn, (referenceFits_of_inv hinvu).window hku⟩
    · exact ih hku hinvu hrun x hx

/-! ### What the peripheral's own moves keep -/

/-- Changes that leave CR alone, clear no bit of SR, set data-ready for an active generator only, and keep a completed
word (spec/10_state.md R40 to R43). -/
structure OwnChange (w w' : Window) : Prop where
  cr : w'.cr = w.cr
  bits : ∀ i, w.sr.getLsbD i = true → w'.sr.getLsbD i = true
  ready : w'.sr.getLsbD 0 = true → w.sr.getLsbD 0 = true ∨ w.cr.getLsbD 2 = true
  dr : w.sr.getLsbD 0 = true → w'.dr = w.dr

theorem OwnChange.trans {w w' w'' : Window} (h : OwnChange w w') (h' : OwnChange w' w'') : OwnChange w w'' where
  cr := h'.cr.trans h.cr
  bits i hi := h'.bits i (h.bits i hi)
  ready hi := (h'.ready hi).elim h.ready fun hen => .inr (h.cr ▸ hen)
  dr hi := (h'.dr (h.bits 0 hi)).trans (h.dr hi)

theorem getLsbD_or_of_left {a b : Word} (i : Nat) (h : a.getLsbD i = true) : (a ||| b).getLsbD i = true := by
  rw [BitVec.getLsbD_or, h, Bool.true_or]

theorem getLsbD_of_or_clear {a b : Word} {i : Nat} (h : (a ||| b).getLsbD i = true) (hb : b.getLsbD i = false) :
    a.getLsbD i = true := by
  rwa [BitVec.getLsbD_or, hb, Bool.or_false] at h

theorem ownChange_periphAct {a : PeriphAct} {w w' : Window} (h : periphAct a w = some w') : OwnChange w w' := by
  cases a with
  | complete v =>
    obtain ⟨hen, hempty, rfl⟩ := periphAct_complete h
    exact ⟨rfl, fun _ => getLsbD_or_of_left _, fun _ => .inr hen, fun hready => by rw [hempty] at hready; cases hready⟩
  | latchClock | latchSeed =>
    cases h
    exact ⟨rfl, fun _ => getLsbD_or_of_left _, fun hi => .inl (getLsbD_of_or_clear hi (by decide)), fun _ => rfl⟩

theorem OwnMoves.ownChange {w w' : Window} (h : OwnMoves w w') : OwnChange w w' := by
  induction h with
  | none w => exact ⟨rfl, fun _ hi => hi, .inl, fun _ => rfl⟩
  | move a w w' w'' ha _ ih => exact (ownChange_periphAct ha).trans ih

/-! ### The properties look at window events only -/

theorem envCr_filter {cur : Word} {tr : List Event} : EnvCr cur (tr.filter onWindow) ↔ EnvCr cur tr := by
  induction tr generalizing cur with
  | nil => rfl
  | cons e tr ih =>
    cases e with
    | regRead => exact and_congr Iff.rfl ih
    | _ => exact ih

theorem envErr_filter {latched : Word} {tr : List Event} :
    EnvErr latched (tr.filter onWindow) ↔ EnvErr latched tr := by
  induction tr generalizing latched with
  | nil => rfl
  | cons e tr ih =>
    cases e with
    | regRead => exact and_congr Iff.rfl ih
    | _ => exact ih

/-! ### The five properties of a chain -/

theorem RefChain.envCr {w : Window} {ts : List Transaction} (h : RefChain w ts) :
    EnvCr w.cr (ts.map Transaction.event) := by
  induction ts generalizing w with
  | nil => trivial
  | cons t rest ih =>
    obtain ⟨hown, ht, hrest⟩ := h
    have hcr := hown.ownChange.cr
    have hnext := ih hrest
    cases ht with
    | readCr w' => exact ⟨fun _ => hcr, hcr ▸ hnext⟩
    | readSr | readDrReady | readDrEmpty => exact ⟨nofun, hcr ▸ hnext⟩
    | writeCr => exact hnext
    | writeSr => exact hcr ▸ hnext

/-- `latched` are error bits that SR has set. -/
def LatchedIn (latched sr : Word) : Prop :=
  ∀ i, latched.getLsbD i = true → maskErr.getLsbD i = true ∧ sr.getLsbD i = true

theorem latchedIn_and_maskErr (sr : Word) : LatchedIn (sr &&& maskErr) sr := by
  intro i hi
  rw [BitVec.getLsbD_and, Bool.and_eq_true] at hi
  exact hi.symm

theorem LatchedIn.clear_drdy {latched sr : Word} (h : LatchedIn latched sr) :
    LatchedIn latched (sr &&& ~~~maskDrdy) := by
  intro i hi
  obtain ⟨herr, hsr⟩ := h i hi
  have hne : i ≠ 0 := by
    rintro rfl
    exact absurd herr (by decide)
  exact ⟨herr, by rw [getLsbD_clear_drdy, hsr, decide_eq_true hne]; rfl⟩

theorem LatchedIn.write {latched sr : Word} (h : LatchedIn latched sr) (v : Word) :
    LatchedIn (latched &&& v) (srAfterWrite sr v) := by
  intro i hi
  rw [BitVec.getLsbD_and, Bool.and_eq_true] at hi
  obtain ⟨herr, hsr⟩ := h i hi.1
  exact ⟨herr, by rw [getLsbD_srAfterWrite, hsr, hi.2]; rfl⟩

theorem RefChain.envErr {w : Window} {ts : List Transaction} {latched : Word} (h : RefChain w ts)
    (hl : LatchedIn latched w.sr) : EnvErr latched (ts.map Transaction.event) := by
  induction ts generalizing w latched with
  | nil => trivial
  | cons t rest ih =>
    obtain ⟨hown, ht, hrest⟩ := h
    have hfound : LatchedIn latched t.found.sr := fun i hi =>
      ⟨(hl i hi).1, hown.ownChange.bits i (hl i hi).2⟩
    cases ht with
    | readSr w' =>
      exact ⟨fun _ => and_not_eq_zero_iff.2 fun i hi => (hfound i hi).2, ih hrest (latchedIn_and_maskErr _)⟩
    | readCr | readDrEmpty => exact ⟨nofun, ih hrest hfound⟩
    | readDrReady => exact ⟨nofun, ih hrest hfound.clear_drdy⟩
    | writeCr => exact ih hrest hfound
    | writeSr w' v => exact ih hrest (hfound.write v)

/-- No transaction sets data-ready (spec/10_state.md R41, R42, R44). -/
theorem RefTransaction.ready {t : Transaction} (h : RefTransaction t) (hl : t.left.sr.getLsbD 0 = true) :
    t.found.sr.getLsbD 0 = true := by
  cases h with
  | readDrReady w hready => exact hready
  | writeSr w v =>
    rw [getLsbD_srAfterWrite, Bool.and_eq_true] at hl
    exact hl.1
  | readCr | readSr | readDrEmpty | writeCr => exact hl

/-- A read of DR with data-ready set takes the word (spec/10_state.md R42). -/
theorem RefTransaction.take {t : Transaction} (h : RefTransaction t) {v : Word} (he : t.event = .regRead offDr v)
    (hready : t.found.sr.getLsbD 0 = true) : v = t.found.dr ∧ t.left.sr.getLsbD 0 = false := by
  cases h with
  | readDrReady w =>
    cases he
    exact ⟨rfl, by rw [getLsbD_clear_drdy]; exact Bool.and_false _⟩
  | readDrEmpty w v' hempty => rw [hempty] at hready; cases hready
  | readCr | readSr | writeCr | writeSr => cases he

theorem RefChain.envDrdy {w : Window} {ts : List Transaction} (h : RefChain w ts) : EnvDrdy w ts := by
  induction ts generalizing w with
  | nil => trivial
  | cons t rest ih =>
    obtain ⟨hown, ht, hrest⟩ := h
    have hchange := hown.ownChange
    exact ⟨hchange.ready, fun hi _ => hchange.dr hi, ht.ready, fun _ => ht.take, ih hrest⟩

theorem RefChain.mem {w : Window} {ts : List Transaction} (h : RefChain w ts) : ∀ t ∈ ts, RefTransaction t := by
  induction ts generalizing w with
  | nil => nofun
  | cons t rest ih =>
    obtain ⟨-, ht, hrest⟩ := h
    exact List.forall_mem_cons.2 ⟨ht, ih hrest⟩

/-- A write to SR acts as R44 says. -/
theorem RefTransaction.srw {t : Transaction} (h : RefTransaction t) {v : Word} (he : t.event = .regWrite offSr v)
    (i : Nat) :
    t.left.sr.getLsbD i = if i = 5 ∨ i = 6 then t.found.sr.getLsbD i && v.getLsbD i else t.found.sr.getLsbD i := by
  cases h with
  | writeSr w v' =>
    cases he
    exact getLsbD_srAfterWrite_eq_ite w.sr v i
  | readCr | readSr | readDrReady | readDrEmpty | writeCr => cases he

theorem RefChain.envSrw {w : Window} {ts : List Transaction} (h : RefChain w ts) : EnvSrw ts :=
  fun t ht _ he i _ => (h.mem t ht).srw he i

theorem RefChain.envSole {w : Window} {ts : List Transaction} (h : RefChain w ts) : EnvSole w ts := by
  induction ts generalizing w with
  | nil => trivial
  | cons t rest ih =>
    obtain ⟨hown, -, hrest⟩ := h
    exact ⟨hown, ih hrest⟩

end Sys2Proof.Safety
end

section
/-! SUPPORT. Two runs that differ in the working registers and `hwerr`: which of them each FSM state still uses, and
that a step of either agrees with the other's (spec/10_state.md R23). -/

namespace Sys2Proof.Safety

open Sys2Proof.Machine

/-! ### Live registers -/

/-- The state with other working registers and another `hwerr`. -/
def withWork (x : Regs) (h : Bool) (s : State) : State := { s with x := x, hwerr := h }

/-- `x` and `h` agree with the state in every register that its call may still use: what Accept latched, and what an
earlier step of the call read. -/
structure Live (x : Regs) (h : Bool) (s : State) : Prop where
  cause : s.st = .iFail → x.cause = s.x.cause
  srWritten : s.st = .iWrsr → x.sr = s.x.sr
  srError : s.st = .rHwerr → x.sr = s.x.sr
  tmo : s.st = .rPoll → x.tmo = s.x.tmo
  word : s.st = .rStore → x.word = s.x.word
  crSaved : savedCr s.st = true → x.crSaved = s.x.crSaved
  latched : family s.st = some .read → x.rem = s.x.rem ∧ x.cnt = s.x.cnt ∧ x.wait = s.x.wait ∧ h = s.hwerr

/-- Two states that agree in everything but registers no longer used. -/
inductive Agree (s : State) : State → Prop where
  | mk (x : Regs) (h : Bool) (live : Live x h s) : Agree s (withWork x h s)

/-- Two outcomes that stop alike, or go on in states that agree. -/
inductive OutcomesAgree : Host.Outcome State Fault Refusal → Host.Outcome State Fault Refusal → Prop where
  | next {s u : State} (h : Agree s u) : OutcomesAgree (.next s) (.next u)
  | fault (r : Fault) : OutcomesAgree (.fault r) (.fault r)
  | refused (r : Refusal) : OutcomesAgree (.refused r) (.refused r)

/-- Outcomes that agree look the same. -/
theorem OutcomesAgree.seen_eq {o o' : Host.Outcome State Fault Refusal} (h : OutcomesAgree o o') :
    seen o = seen o' := by
  cases h with
  | next ha => cases ha; rfl
  | fault | refused => rfl

/-- Going on alike from states that agree. -/
theorem OutcomesAgree.andThen {o o' : Host.Outcome State Fault Refusal}
    {k : State → Host.Outcome State Fault Refusal} (h : OutcomesAgree o o')
    (hk : ∀ s u, Agree s u → OutcomesAgree (k s) (k u)) : OutcomesAgree (andThen o k) (andThen o' k) := by
  cases h with
  | next ha => exact hk _ _ ha
  | fault r => exact .fault r
  | refused r => exact .refused r

/-- The FSM states that use the cause, the status word, the poll count or the data word. -/
abbrev usesAnswer (q : Fsm) : Prop := q = .iFail ∨ q = .iWrsr ∨ q = .rHwerr ∨ q = .rPoll ∨ q = .rStore

/-- The other FSM states use `cr_saved` and what READ's Accept latched, if anything. -/
theorem Live.of_not_usesAnswer {x : Regs} {h : Bool} {s : State} {q : Fsm} (hst : s.st = q) (hq : ¬ usesAnswer q)
    (hsaved : savedCr q = true → x.crSaved = s.x.crSaved)
    (hlatched : family q = some .read → x.rem = s.x.rem ∧ x.cnt = s.x.cnt ∧ x.wait = s.x.wait ∧ h = s.hwerr) :
    Live x h s := by
  subst hst
  obtain ⟨h1, h2, h3, h4, h5⟩ : s.st ≠ .iFail ∧ s.st ≠ .iWrsr ∧ s.st ≠ .rHwerr ∧ s.st ≠ .rPoll ∧ s.st ≠ .rStore := by
    simpa [usesAnswer] using hq
  exact ⟨(absurd · h1), (absurd · h2), (absurd · h3), (absurd · h4), (absurd · h5), hsaved, hlatched⟩

/-! ### A misplaced window stops both alike -/

theorem outcomesAgree_read_misplaced {s : State} {x : Regs} {h : Bool} {a : Nat}
    {k k' : Word × State → Host.Outcome State Fault Refusal} (hp : ¬ s.cfg.Placed) :
    OutcomesAgree (andThen (memRead a s) k) (andThen (memRead a (withWork x h s)) k') := by
  rw [memRead_misplaced a s hp, memRead_misplaced a (withWork x h s) hp]
  exact .refused _

theorem outcomesAgree_write_misplaced {s : State} {x : Regs} {h : Bool} {a : Nat} {v v' : Word}
    {k k' : State → Host.Outcome State Fault Refusal} (hp : ¬ s.cfg.Placed) :
    OutcomesAgree (andThen (memWrite a v s) k) (andThen (memWrite a v' (withWork x h s)) k') := by
  rw [memWrite_misplaced a v s hp, memWrite_misplaced a v' (withWork x h s) hp]
  exact .refused _

/-! ### The steps of INIT -/

section Steps
variable {s : State} {x : Regs} {h : Bool} (hl : Live x h s)

theorem stepIPrep_agree : OutcomesAgree (stepIPrep s) (stepIPrep (withWork x h s)) := by
  have hsame : (clkPrepare (withWork x h s)).1 = (clkPrepare s).1 := rfl
  unfold stepIPrep
  rw [hsame]
  split
  · exact .next (.mk _ _ (.of_not_usesAnswer (goto_st _ _) (by decide) nofun nofun))
  · exact .next (.mk _ _ ⟨fun _ => rfl, nofun, nofun, nofun, nofun, nofun, nofun⟩)

theorem stepIRdsr_agree : OutcomesAgree (stepIRdsr s) (stepIRdsr (withWork x h s)) := by
  by_cases hp : s.cfg.Placed
  · rw [stepIRdsr_eq s hp, stepIRdsr_eq (withWork x h s) hp]
    exact .next (.mk _ _ ⟨nofun, fun _ => rfl, nofun, nofun, nofun, nofun, nofun⟩)
  · exact outcomesAgree_read_misplaced hp

theorem ret_agree (r : Response) : Agree (ret r s) (ret r (withWork x h s)) :=
  .mk _ _ (.of_not_usesAnswer (ret_st _ _) (by decide) nofun nofun)

include hl

theorem stepIFail_agree (hst : s.st = .iFail) : OutcomesAgree (stepIFail s) (stepIFail (withWork x h s)) := by
  have hcause : (withWork x h s).x.cause = s.x.cause := hl.cause hst
  unfold stepIFail
  rw [hcause]
  exact .next (ret_agree _)

theorem stepIWrsr_agree (hst : s.st = .iWrsr) : OutcomesAgree (stepIWrsr s) (stepIWrsr (withWork x h s)) := by
  by_cases hp : s.cfg.Placed
  · have hsr : (withWork x h s).x.sr = s.x.sr := hl.srWritten hst
    rw [stepIWrsr_eq s hp, stepIWrsr_eq (withWork x h s) hp, hsr]
    exact .next (.mk _ _ (.of_not_usesAnswer (goto_st _ _) (by decide) nofun nofun))
  · exact outcomesAgree_write_misplaced hp

theorem execInit_agree (hf : family s.st = some .init) : OutcomesAgree (execInit s) (execInit (withWork x h s)) := by
  have hst' : (withWork x h s).st = s.st := rfl
  unfold execInit
  rw [hst']
  cases hst : s.st with
  | iPrep => exact stepIPrep_agree
  | iFail => exact stepIFail_agree hl hst
  | iRdsr => exact stepIRdsr_agree
  | iWrsr => exact stepIWrsr_agree hl hst
  | iRet => exact .next (ret_agree _)
  | _ => simp [hst, family] at hf

/-! ### The steps of READ -/

variable (hf : family s.st = some .read)
include hf

theorem stepRRdcr_agree : OutcomesAgree (stepRRdcr s) (stepRRdcr (withWork x h s)) := by
  by_cases hp : s.cfg.Placed
  · rw [stepRRdcr_eq s hp, stepRRdcr_eq (withWork x h s) hp]
    exact .next (.mk _ _ (.of_not_usesAnswer (goto_st _ _) (by decide) (fun _ => rfl) fun _ => hl.latched hf))
  · exact outcomesAgree_read_misplaced hp

theorem stepRWrcr_agree (hst : s.st = .rWrcr) : OutcomesAgree (stepRWrcr s) (stepRWrcr (withWork x h s)) := by
  have hcr := hl.crSaved (by rw [hst]; rfl)
  by_cases hp : s.cfg.Placed
  · have hcr' : (withWork x h s).x.crSaved = s.x.crSaved := hcr
    rw [stepRWrcr_eq s hp, stepRWrcr_eq (withWork x h s) hp, hcr']
    exact .next (.mk _ _ (.of_not_usesAnswer (goto_st _ _) (by decide) (fun _ => hcr) fun _ => hl.latched hf))
  · exact outcomesAgree_write_misplaced hp

/-- The first status read of a pass uses the latched `wait`, and loads `tmo` before a poll uses it (spec/41_read.md
R126, R127). -/
theorem stepRRdsr_agree (hst : s.st = .rRdsr) : OutcomesAgree (stepRRdsr s) (stepRRdsr (withWork x h s)) := by
  by_cases hp : s.cfg.Placed
  · have hwait : (withWork x h s).x.wait = s.x.wait := (hl.latched hf).2.2.1
    have hcr := hl.crSaved (by rw [hst]; rfl)
    rw [stepRRdsr_eq s hp, stepRRdsr_eq (withWork x h s) hp, hwait]
    refine .next (.mk _ _ ⟨?_, fun _ => rfl, fun _ => rfl, fun hpoll => ?_, ?_, fun _ => hcr, fun _ => hl.latched hf⟩)
    · exact (absurd · (afterFirstRead_elim (P := (· ≠ .iFail)) _ _ nofun nofun nofun nofun))
    · rcases afterFirstRead_cases s.x.wait (envRead s.env .sr).1 with ⟨-, hzero⟩ | ⟨hgo, -⟩
      · exact (if_pos hzero).trans (if_pos hzero).symm
      · exact absurd (hgo.symm.trans hpoll) (nextOf_elim (P := (· ≠ .rPoll)) _ nofun nofun nofun)
    · exact (absurd · (afterFirstRead_elim (P := (· ≠ .rStore)) _ _ nofun nofun nofun nofun))
  · exact outcomesAgree_read_misplaced hp

theorem stepRPoll_agree (hst : s.st = .rPoll) : OutcomesAgree (stepRPoll s) (stepRPoll (withWork x h s)) := by
  by_cases hp : s.cfg.Placed
  · have htmo : (withWork x h s).x.tmo = s.x.tmo := hl.tmo hst
    have hcr := hl.crSaved (by rw [hst]; rfl)
    rw [stepRPoll_eq s hp, stepRPoll_eq (withWork x h s) hp, htmo]
    refine .next (.mk _ _ ⟨?_, fun _ => rfl, fun _ => rfl, fun _ => rfl, ?_, fun _ => hcr, fun _ => hl.latched hf⟩)
    · exact (absurd · (afterReRead_elim (P := (· ≠ .iFail)) _ _ nofun nofun nofun nofun))
    · exact (absurd · (afterReRead_elim (P := (· ≠ .rStore)) _ _ nofun nofun nofun nofun))
  · exact outcomesAgree_read_misplaced hp

theorem stepRHwerr_agree (hst : s.st = .rHwerr) : OutcomesAgree (stepRHwerr s) (stepRHwerr (withWork x h s)) := by
  have hsr : (withWork x h s).x.sr = s.x.sr := hl.srError hst
  have hcr := hl.crSaved (by rw [hst]; rfl)
  obtain ⟨hrem, hcnt, hwait, -⟩ := hl.latched hf
  unfold stepRHwerr
  rw [hsr]
  exact .next (.mk _ _ (.of_not_usesAnswer (goto_st _ _) (by decide) (fun _ => hcr) fun _ => ⟨hrem, hcnt, hwait, rfl⟩))

theorem stepRRddr_agree (hst : s.st = .rRddr) : OutcomesAgree (stepRRddr s) (stepRRddr (withWork x h s)) := by
  have hcr := hl.crSaved (by rw [hst]; rfl)
  by_cases hp : s.cfg.Placed
  · rw [stepRRddr_eq s hp, stepRRddr_eq (withWork x h s) hp]
    exact .next (.mk _ _ ⟨nofun, nofun, nofun, nofun, fun _ => rfl, fun _ => hcr, fun _ => hl.latched hf⟩)
  · exact outcomesAgree_read_misplaced hp

theorem stepRStore_agree (hst : s.st = .rStore) : OutcomesAgree (stepRStore s) (stepRStore (withWork x h s)) := by
  have hcr := hl.crSaved (by rw [hst]; rfl)
  obtain ⟨hrem, hcnt, hwait, hhwerr⟩ := hl.latched hf
  have hword : (withWork x h s).x.word = s.x.word := hl.word hst
  have hcnt' : (withWork x h s).x.cnt = s.x.cnt := hcnt
  have hrem' : (withWork x h s).x.rem = s.x.rem := hrem
  by_cases hroom : s.x.cnt.toNat + 4 ≤ s.buf.len
  · rw [stepRStore_eq s hroom, stepRStore_eq (withWork x h s) (hcnt' ▸ hroom), hword, hcnt', hrem']
    refine .next (.mk _ _ (.of_not_usesAnswer (goto_st _ _) ?_ (fun _ => hcr) fun _ => ⟨rfl, rfl, hwait, hhwerr⟩))
    exact afterStore_elim (P := (¬ usesAnswer ·)) _ (by decide) (by decide)
  · have hlen : (withWork x h s).buf = s.buf := rfl
    unfold stepRStore bufWrite
    rw [hcnt', hlen, if_neg hroom, if_neg hroom]
    exact .fault _

theorem stepRRestore_agree (hst : s.st = .rRestore) :
    OutcomesAgree (stepRRestore s) (stepRRestore (withWork x h s)) := by
  by_cases hp : s.cfg.Placed
  · have hcr : (withWork x h s).x.crSaved = s.x.crSaved := hl.crSaved (by rw [hst]; rfl)
    rw [stepRRestore_eq s hp, stepRRestore_eq (withWork x h s) hp, hcr]
    exact .next (.mk _ _ (.of_not_usesAnswer (goto_st _ _) (by decide) nofun fun _ => hl.latched hf))
  · exact outcomesAgree_write_misplaced hp

theorem stepRRet_agree : OutcomesAgree (stepRRet s) (stepRRet (withWork x h s)) := by
  obtain ⟨-, hcnt, hwait, hhwerr⟩ := hl.latched hf
  have hcnt' : (withWork x h s).x.cnt = s.x.cnt := hcnt
  have hwait' : (withWork x h s).x.wait = s.x.wait := hwait
  have hhwerr' : (withWork x h s).hwerr = s.hwerr := hhwerr
  unfold stepRRet raiseOutcome
  rw [hcnt', hwait', hhwerr']
  split <;> exact .next (ret_agree _)

/-- READ's working steps agree, whatever operands they are called with: the latched ones count. -/
theorem execRead_agree (n n' : Nat) (wait wait' : Bool) :
    OutcomesAgree (execRead n wait s) (execRead n' wait' (withWork x h s)) := by
  have hst' : (withWork x h s).st = s.st := rfl
  unfold execRead
  rw [hst']
  cases hst : s.st with
  | rClken | rClkdis =>
    exact .next (.mk _ _ (.of_not_usesAnswer (goto_st _ _) (by decide) nofun fun _ => hl.latched hf))
  | rRdcr => exact stepRRdcr_agree hl hf
  | rWrcr => exact stepRWrcr_agree hl hf hst
  | rRdsr => exact stepRRdsr_agree hl hf hst
  | rPoll => exact stepRPoll_agree hl hf hst
  | rHwerr => exact stepRHwerr_agree hl hf hst
  | rRddr => exact stepRRddr_agree hl hf hst
  | rStore => exact stepRStore_agree hl hf hst
  | rRestore => exact stepRRestore_agree hl hf hst
  | rRet => exact stepRRet_agree hl hf
  | _ => simp [hst, family] at hf

end Steps

/-! ### CLEANUP, Accept, and any step -/

theorem execCleanup_agree {s : State} {x : Regs} {h : Bool} (hf : family s.st = some .cleanup) :
    OutcomesAgree (execCleanup s) (execCleanup (withWork x h s)) := by
  have hst' : (withWork x h s).st = s.st := rfl
  unfold execCleanup
  rw [hst']
  cases hst : s.st with
  | cUnprep => exact .next (.mk _ _ (.of_not_usesAnswer (goto_st _ _) (by decide) nofun nofun))
  | cRet => exact .next (ret_agree _)
  | _ => simp [hst, family] at hf

/-- Accept loads what READ uses and clears `hwerr`; nothing of the call before is used (spec/30_encoding.md R93,
spec/41_read.md R121). -/
theorem exec_idle_agree {s : State} {x : Regs} {h : Bool} (hs : s.st = .idle) (i : Instr) :
    OutcomesAgree (exec i s) (exec i (withWork x h s)) := by
  have hs' : (withWork x h s).st = .idle := hs
  have hprep : (withWork x h s).prepared = s.prepared := rfl
  cases i with
  | init =>
    simp only [exec, execInit, hs, hs', stepAcceptInit, hprep]
    split
    · exact .refused _
    · exact .next (.mk _ _ (.of_not_usesAnswer (goto_st _ _) (by decide) nofun nofun))
  | read n wait =>
    simp only [exec, execRead, hs, hs', stepAcceptRead, hprep]
    split
    · refine .next (.mk _ _ (.of_not_usesAnswer (goto_st _ _) ?_ ?_ fun _ => ⟨rfl, rfl, rfl, rfl⟩))
      · exact readEntry_elim (P := (¬ usesAnswer ·)) n (by decide) (by decide)
      · exact readEntry_elim (P := fun q => savedCr q = true → _) n nofun nofun
    · exact .refused _
  | cleanup =>
    simp only [exec, execCleanup, hs, hs', stepAcceptCleanup, hprep]
    split
    · exact .next (.mk _ _ (.of_not_usesAnswer (goto_st _ _) (by decide) nofun nofun))
    · exact .refused _

/-- An idle block uses no working register. -/
theorem live_of_idle {s : State} (hs : s.st = .idle) (x : Regs) (h : Bool) : Live x h s :=
  .of_not_usesAnswer hs (by decide) nofun nofun

theorem step_idle_agree {s : State} {x : Regs} {h : Bool} (hs : s.st = .idle) :
    OutcomesAgree (step s) (step (withWork x h s)) := by
  have hfetch : fetch (withWork x h s) = fetch s := by simp only [fetch, withWork, hs, family]
  unfold step
  rw [hfetch]
  cases fetch s with
  | waiting => exact .next (.mk x h (live_of_idle hs x h))
  | command i => exact exec_idle_agree hs i
  | invalid r => exact .refused _

/-- States that agree take steps that agree. -/
theorem Agree.step {s u : State} (ha : Agree s u) : OutcomesAgree (step s) (step u) := by
  obtain ⟨x, h, hl⟩ := ha
  cases hf : family s.st with
  | none => exact step_idle_agree (family_eq_none.1 hf)
  | some c =>
    have hf' : family (withWork x h s).st = some c := hf
    cases c with
    | init =>
      rw [step_of_init hf, step_of_init hf']
      exact execInit_agree hl hf
    | read =>
      rw [step_of_read hf, step_of_read hf']
      exact execRead_agree hl hf _ _ _ _
    | cleanup =>
      rw [step_of_cleanup hf, step_of_cleanup hf']
      exact execCleanup_agree hf

/-- And so runs that agree. -/
theorem Agree.run (k : Nat) {s u : State} (ha : Agree s u) : OutcomesAgree (run k s) (run k u) := by
  induction k generalizing s u with
  | zero => exact .next ha
  | succ k ih =>
    rw [run_succ, run_succ]
    exact ha.step.andThen fun _ _ => ih

end Sys2Proof.Safety
end

section
/-! PROOFS of the statements about the state: the invariant, the registers, the environment and construction
(spec/10_state.md). -/

namespace Sys2Proof.Proofs

open Sys2Proof.Machine Sys2Proof.Safety

/-- Settles O12: each of the five parts of the invariant is kept by every next state of the three commands. -/
theorem stepKeepsInv : Obligations.StepKeepsInv :=
  fun _ _ hinv h => hinv.step h

/-- Settles O57: a run with the reference peripheral is a chain of its transactions, and each property holds of every
such chain, by induction on it; the unrecognised bits are zero by the invariant, which every step keeps. -/
theorem referenceRunsMeetTheEnvironmentProperties : Obligations.ReferenceRunsMeetTheEnvironmentProperties := by
  intro k s t hk h
  have hchain : RefChain s.env.win (transactions k s) := run_refChain hk h
  obtain ⟨tr, htrace, hevents⟩ := run_trace h
  have hcr := hchain.envCr
  have herr := hchain.envErr (latchedIn_and_maskErr _)
  rw [hevents] at hcr herr
  exact ⟨⟨tr, htrace, hevents, envCr_filter.1 hcr, envErr_filter.1 herr⟩, hchain.envDrdy, hchain.envSrw,
    hchain.envSole, fun hinv => run_namedBitsOnly hk hinv h⟩

/-- Settles O60: an idle block uses no working register, so the two states agree in all that is used, and steps keep
that: each register is loaded before the call uses it. -/
theorem workingRegistersCarryNothingOver : Obligations.WorkingRegistersCarryNothingOver :=
  fun k _ x h hs => (Agree.run k (.mk x h (live_of_idle hs x h))).seen_eq

/-- Settles O10: under the invariant the window is placed and a store fits, which is all that could stop a working
state. -/
theorem workingStatesAlwaysStep : Obligations.WorkingStatesAlwaysStep :=
  fun _ hinv hs => step_goes_on_of_working hinv hs

/-- Settles O16, by the inversions: the event of each next state names the register, the FSM state and the word. -/
theorem commandsTouchOnlyTheirRegisters : Obligations.CommandsTouchOnlyTheirRegisters := by
  intro s t off v
  exact ⟨fun h => ⟨(execInit_next h).regRead, (execInit_next h).regWrite⟩,
    fun n wait h => ⟨(execRead_next h).regRead, (execRead_next h).regWrite⟩,
    fun h => (execCleanup_next h).no_window_event⟩

/-- Settles O24, field by field from the inversion of INIT's steps. -/
theorem initFrame : Obligations.InitFrame := by
  intro s t h
  have hn : InitNext s t := execInit_next h
  have hx := hn.x_eq
  rw [hn.buf_eq]
  exact ⟨hn.cfg_eq, by rw [hx], by rw [hx], by rw [hx], by rw [hx], by rw [hx], by rw [hx], hn.sr_eq, hn.cause_eq,
    fun hs => ⟨hn.hwerr_eq hs, hn.pending_eq hs⟩, hn.prepared_eq, hn.response_eq, rfl, fun _ => rfl, hn.env_kind_eq,
    hn.clkEnabled_eq, hn.clkPrepared_eq, hn.win_eq⟩

/-- Settles O41, field by field from the inversion of READ's steps; at Accept the buffer is the host's, cut to its
length. -/
theorem readFrame : Obligations.ReadFrame := by
  intro s t n wait h hstore
  have hn : ReadNext n wait s t := execRead_next h
  refine ⟨hn.cfg_eq, hn.prepared_eq, hn.cause_eq, hn.env_kind_eq, hn.clkPrepared_eq, hn.crSaved_eq, hn.sr_tmo_eq,
    hn.word_eq, fun hi => ?working, fun hi => ?accept, hn.hwerr_eq, hn.response_eq, hn.clkEnabled_eq, hn.win_eq⟩
  case working =>
    obtain ⟨hrem, hcnt, hbuf⟩ := hn.counters_buf_eq hi hstore
    obtain ⟨hwait, hpending⟩ := hn.wait_pending_eq hi
    exact ⟨hrem, hcnt, hwait, hpending, by rw [hbuf], fun a => by rw [hbuf]⟩
  case accept =>
    rw [hn.buf_of_accept hi]
    exact ⟨rfl, fun a ha => readByte_filter _ _ _ ha⟩

/-- Settles O56, bit by bit from the three acts of the peripheral. -/
theorem referencePeripheralActs : Obligations.ReferencePeripheralActs := by
  refine ⟨fun old v i _ => getLsbD_srAfterWrite_eq_ite old v i, fun e he => ?read, fun v w w' h => ?complete⟩
  case read =>
    rw [refRead_dr_ready he]
    refine ⟨rfl, fun i => ?_⟩
    simp only [getLsbD_clear_drdy]
    by_cases hi : i = 0 <;> simp [hi]
  case complete =>
    obtain ⟨hen, -, rfl⟩ := periphAct_complete h
    refine ⟨hen, rfl, rfl, fun i => ?_⟩
    by_cases hi : i = 0 <;> simp [getLsbD_maskDrdy, hi]

/-- Settles O7: `step` asks `fetch`, which follows the FSM state, and in `S_IDLE` the host. -/
theorem stepRunsTheDecodedCommand : Obligations.StepRunsTheDecodedCommand := by
  intro s
  refine ⟨fun p rest i hs hp hd => ?presented, step_of_init, step_of_read, step_of_cleanup, fun hs hp => ?waiting⟩
  case presented => simp [step, fetch, fetchPresented, family, hs, hp, hd]
  case waiting => simp [step, fetch, fetchPresented, family, hs, hp]

/-- Settles O13: the parameters meet their constraints, no buffer and no command is there, and an idle block promises
nothing of the working registers. -/
theorem resetMeetsInv : Obligations.ResetMeetsInv where
  cfgOk := config_params_ok
  bufWf := reset_buf_wf
  bufIn := nofun
  pendingWf := nofun
  tmoLe := Nat.zero_le _
  preparedFits := nofun
  clkPreparedFits := rfl
  clkEnabledFits := rfl
  hwerrFits := nofun
  lenFits := nofun
  counters := nofun
  cntAligned := nofun
  room := nofun
  polling := nofun
  errorSeen := nofun
  dataSeen := nofun
  refSr := nofun
  refCr := nofun
  refSaved := nofun

/-- Settles O14: the fields of construction, and its parameters by their shape. -/
theorem resetState : Obligations.ResetState :=
  ⟨rfl, rfl, rfl, rfl, rfl, rfl, rfl, rfl, config_params_ok⟩

/-- Settles O55, one register at a time from the answer of the trusted environment. -/
theorem answersAreTheEnvironmentsChoice : Obligations.AnswersAreTheEnvironmentsChoice := by
  intro e
  refine ⟨fun v rest hk ha => envRead_drawn (r := .cr) hk ha, fun v rest hk ha => envRead_drawn (r := .sr) hk ha,
    fun v rest hk ha => envRead_drawn (r := .dr) hk ha, fun a rest ha => ?_⟩
  simp [drawPrep, ha]

end Sys2Proof.Proofs
end

section
/-! SUPPORT. The command word and the response word as three fields, the rows of the opcode map by what selects them,
and `decode` by its cases (spec/30_encoding.md sections 1 to 3 and 6). -/

namespace Sys2Proof

/-! ### A word of three fields -/

/-- The layout that the command word and the response word share: bits 31:3, bit 2, bits 1:0 (spec/30_encoding.md R90,
R96). -/
def packWord (high : BitVec 29) (flag : Bool) (low : BitVec 2) : Word :=
  (high.setWidth 32 <<< 3) ||| ((BitVec.ofBool flag).setWidth 32 <<< 2) ||| low.setWidth 32

theorem encode_read (n : Nat) (wait : Bool) : encode (.read n wait) = packWord (BitVec.ofNat 29 n) wait 0b01 := rfl

theorem responseWord_eq_packWord (r : Machine.Response) :
    Machine.responseWord r = packWord r.payload r.hwerr (Machine.statusCode r.status) := rfl

section Fields
variable (high : BitVec 29) (flag : Bool) (low : BitVec 2)

/-- Every bit of the word lies in one of the fields. -/
theorem getLsbD_packWord (i : Nat) :
    (packWord high flag low).getLsbD i =
      if i < 2 then low.getLsbD i else if i = 2 then flag else high.getLsbD (i - 3) := by
  have hlow (h : 2 ≤ i) : low.getLsbD i = false := BitVec.getLsbD_of_ge _ _ h
  have hhigh (h : 32 ≤ i) : high.getLsbD (i - 3) = false := BitVec.getLsbD_of_ge _ _ (by omega)
  simp only [packWord, BitVec.getLsbD_or, BitVec.getLsbD_shiftLeft, BitVec.getLsbD_setWidth, BitVec.getLsbD_ofBool]
  grind

theorem packWord_high : (packWord high flag low).extractLsb' 3 29 = high := by
  refine BitVec.eq_of_getLsbD_eq fun i hi => ?_
  simp [getLsbD_packWord, hi, show ¬ 3 + i < 2 by omega, show 3 + i ≠ 2 by omega]

theorem packWord_flag : (packWord high flag low).getLsbD 2 = flag := by
  rw [getLsbD_packWord]
  rfl

theorem packWord_low : (packWord high flag low).extractLsb' 0 2 = low := by
  refine BitVec.eq_of_getLsbD_eq fun i hi => ?_
  simp [getLsbD_packWord, hi]

end Fields

/-- A word is its three fields: no bit is left over. -/
theorem packWord_fields (w : Word) : packWord (w.extractLsb' 3 29) (w.getLsbD 2) (w.extractLsb' 0 2) = w := by
  refine BitVec.eq_of_getLsbD_eq fun i hi => ?_
  rw [getLsbD_packWord, BitVec.getLsbD_extractLsb', BitVec.getLsbD_extractLsb']
  split_ifs with hlow hflag
  · simp [hlow]
  · rw [hflag]
  · simp [show i - 3 < 29 by omega, show 3 + (i - 3) = i by omega]

/-! ### What selects each row -/

theorem toNat_opField (w : Word) : (opField w).toNat = w.toNat % 4 := by
  simp [opField]

/-- A word with nothing above its `op` field is that field, widened (spec/30_encoding.md R94). -/
theorem eq_setWidth_iff (w : Word) (op : BitVec 2) : w = op.setWidth 32 ↔ opField w = op ∧ w >>> 2 = 0 := by
  have hop : op.toNat < 4 := op.isLt
  have hwide : op.toNat % 2 ^ 32 = op.toNat := Nat.mod_eq_of_lt (by omega)
  have hzero : (0 : Word).toNat = 0 := rfl
  simp only [← BitVec.toNat_inj, toNat_opField, BitVec.toNat_setWidth, hwide, BitVec.toNat_ushiftRight,
    Nat.shiftRight_eq_div_pow, hzero]
  omega

theorem selects_of_full_mask {a : OpcodeRow} {w : Word} (h : a.mask = BitVec.allOnes 32) :
    a.selects w = true ↔ w = a.pattern := by
  rw [OpcodeRow.selects, beq_iff_eq, h, BitVec.and_allOnes]

theorem initRow_selects {w : Word} : initRow.selects w = true ↔ w = 0 := selects_of_full_mask rfl

theorem cleanupRow_selects {w : Word} : cleanupRow.selects w = true ↔ w = 2 := selects_of_full_mask rfl

theorem readRow_selects {w : Word} : readRow.selects w = true ↔ opField w = 0b01 := by
  have hmask : (w &&& 0x00000003).toNat = w.toNat % 4 := Nat.and_two_pow_sub_one_eq_mod w.toNat 2
  rw [OpcodeRow.selects, beq_iff_eq, ← BitVec.toNat_inj, ← BitVec.toNat_inj, toNat_opField, ← hmask]
  rfl

/-! ### `decode` by its cases -/

theorem decode_eq_ite (w : Word) :
    decode w =
      if w = 0 then .ok .init
      else if opField w = 0b01 then .ok (.read (lenField w) (waitField w))
      else if w = 2 then .ok .cleanup
      else .error (rejectReason w) := by
  simp only [decode, initRow_selects, readRow_selects, cleanupRow_selects]

theorem decode_of_op_read {w : Word} (h : opField w = 0b01) : decode w = .ok (.read (lenField w) (waitField w)) := by
  have hzero : w ≠ 0 := by
    rintro rfl
    exact absurd h (by decide)
  rw [decode_eq_ite, if_neg hzero, if_pos h]

/-- The one command of a word that is no invalid word. -/
theorem decode_eq_ok {w : Word} {i : Instr} (h : decode w = .ok i) :
    (w = 0 ∧ i = .init) ∨ (opField w = 0b01 ∧ i = .read (lenField w) (waitField w)) ∨ (w = 2 ∧ i = .cleanup) := by
  rw [decode_eq_ite] at h
  split_ifs at h with hinit hread hcleanup
  · exact .inl ⟨hinit, by cases h; rfl⟩
  · exact .inr (.inl ⟨hread, by cases h; rfl⟩)
  · exact .inr (.inr ⟨hcleanup, by cases h; rfl⟩)

theorem decode_eq_error_iff {w : Word} : (∃ r, decode w = .error r) ↔ w ≠ 0 ∧ opField w ≠ 0b01 ∧ w ≠ 2 := by
  rw [decode_eq_ite]
  split_ifs <;> simp_all

/-! ### The rows are told apart by `op` -/

/-- A row's mask covers `op`, so a word that selects the row has the `op` of its pattern. -/
theorem opField_of_selects {w : Word} {a : OpcodeRow} (ha : a ∈ opcodeMap) (h : a.selects w = true) :
    opField w = opField a.pattern := by
  simp only [opcodeMap, List.mem_cons, List.not_mem_nil, or_false] at ha
  rcases ha with rfl | rfl | rfl
  · rw [initRow_selects.1 h]
    rfl
  · rw [readRow_selects.1 h]
    rfl
  · rw [cleanupRow_selects.1 h]
    rfl

theorem row_eq_of_opField_eq : ∀ a ∈ opcodeMap, ∀ b ∈ opcodeMap, opField a.pattern = opField b.pattern → a = b := by
  decide

end Sys2Proof
end

section
/-! SUPPORT. A presented command in `S_IDLE`, and the steps that return: from the inversions, the FSM state and the
response of each (spec/30_encoding.md sections 4 to 6). -/

namespace Sys2Proof.Machine

/-! ### Accept -/

section Accept
variable {s : State} (hs : s.st = .idle)
include hs

theorem exec_init_idle : exec .init s = stepAcceptInit s := by
  simp only [exec, execInit, hs]

theorem exec_read_idle (n : Nat) (wait : Bool) : exec (.read n wait) s = stepAcceptRead n wait s := by
  simp only [exec, execRead, hs]

theorem exec_cleanup_idle : exec .cleanup s = stepAcceptCleanup s := by
  simp only [exec, execCleanup, hs]

theorem step_of_invalid {p : Presented} {rest : List Presented} {r : Reject} (hp : s.pending = p :: rest)
    (hd : decode p.word = .error r) : step s = .refused (.invalidCommand r) := by
  simp [step, fetch, fetchPresented, family, hs, hp, hd]

end Accept

/-! ### Return -/

section Return
variable {n : Nat} {wait : Bool} {s t : State} {r : Response}

/-- INIT returns from `S_I_FAIL` and `S_I_RET` (spec/40_init.md R112, R115). -/
theorem InitNext.returns (h : InitNext s t) (ht : t.trace = s.trace ++ [.ret r]) :
    t = Machine.ret r s ∧ family s.st = some .init ∧
      (r = ⟨.ok, 0, false⟩ ∨ r = ⟨.clockUnavailable, s.x.cause, false⟩) := by
  cases h with
  | fail hst =>
    obtain rfl : _ = r := by simpa using ht
    exact ⟨rfl, by rw [hst]; rfl, .inr rfl⟩
  | ret hst =>
    obtain rfl : _ = r := by simpa using ht
    exact ⟨rfl, by rw [hst]; rfl, .inl rfl⟩
  | _ => simp at ht

/-- READ returns from `S_R_RET`, with NoDataTimeout when the count is 0 and `wait` is set (spec/41_read.md R136). -/
theorem ReadNext.returns (h : ReadNext n wait s t) (ht : t.trace = s.trace ++ [.ret r]) :
    t = Machine.ret r s ∧ family s.st = some .read ∧ r.payload = s.x.cnt ∧
      r.status = if s.x.cnt = 0 ∧ s.x.wait = true then .noDataTimeout else .ok := by
  cases h with
  | retTimeout hst hc hw =>
    obtain rfl : _ = r := by simpa using ht
    exact ⟨rfl, by rw [hst]; rfl, hc.symm, (if_pos ⟨hc, hw⟩).symm⟩
  | retOk hst hc =>
    obtain rfl : _ = r := by simpa using ht
    exact ⟨rfl, by rw [hst]; rfl, rfl, (if_neg hc).symm⟩
  | _ => simp at ht

/-- CLEANUP returns from `S_C_RET` (spec/42_cleanup.md R162). -/
theorem CleanupNext.returns (h : CleanupNext s t) (ht : t.trace = s.trace ++ [.ret r]) :
    t = Machine.ret r s ∧ family s.st = some .cleanup ∧ r = ⟨.ok, 0, false⟩ := by
  cases h with
  | ret hst =>
    obtain rfl : _ = r := by simpa using ht
    exact ⟨rfl, by rw [hst]; rfl, rfl⟩
  | _ => simp at ht

end Return

end Sys2Proof.Machine
end

section
/-! PROOFS of the statements about the encoding: command words, response words, and which commands are accepted
(spec/30_encoding.md). -/

namespace Sys2Proof.Proofs

open Sys2Proof.Machine Sys2Proof.Safety

/-- Settles O1, one command at a time; the word of READ has `op` 01, and a length below `2 ^ 29` fits its field. -/
theorem decodeEncodeRoundTrip : Obligations.DecodeEncodeRoundTrip := by
  intro i hi
  cases i with
  | init => decide
  | cleanup => decide
  | read n wait =>
    have hlen : lenField (encode (.read n wait)) = n := by
      rw [encode_read, lenField, packWord_high, BitVec.toNat_ofNat, Nat.mod_eq_of_lt hi]
    have hwait : waitField (encode (.read n wait)) = wait := by
      rw [encode_read, waitField, packWord_flag]
    rw [decode_of_op_read (Laws.EncodedOp.read n wait), hlen, hwait]

/-- Settles O2, by the cases of `decode`: a row fixes the whole word but for the fields that READ takes as operands, and
a word is its fields. -/
theorem decodedWordIsItsEncoding : Obligations.DecodedWordIsItsEncoding := by
  intro w i h
  rcases decode_eq_ok h with ⟨rfl, rfl⟩ | ⟨hop, rfl⟩ | ⟨rfl, rfl⟩
  · exact ⟨trivial, rfl⟩
  · refine ⟨BitVec.isLt _, ?_⟩
    calc encode (.read (lenField w) (waitField w))
        = packWord (w.extractLsb' 3 29) (waitField w) 0b01 := by
          rw [encode_read, lenField, BitVec.ofNat_toNat, BitVec.setWidth_eq]
      _ = packWord (w.extractLsb' 3 29) (w.getLsbD 2) (opField w) := by rw [hop, waitField]
      _ = w := packWord_fields w
  · exact ⟨trivial, rfl⟩

/-- Settles O3: INIT and CLEANUP are the one word of their `op` with nothing above it, so the words that select no row
are told by `op` and bits 31:2. -/
theorem invalidWordsAreThese : Obligations.InvalidWordsAreThese := by
  intro w
  refine ⟨?_, decode_of_op_read⟩
  have hinit : w = 0 ↔ opField w = 0b00 ∧ w >>> 2 = 0 := eq_setWidth_iff w 0b00
  have hcleanup : w = 2 ↔ opField w = 0b10 ∧ w >>> 2 = 0 := eq_setWidth_iff w 0b10
  rw [decode_eq_error_iff, Ne, Ne, Ne, hinit, hcleanup]
  have hop : ∀ op : BitVec 2, op = 0b00 ∨ op = 0b01 ∨ op = 0b10 ∨ op = 0b11 := by decide
  rcases hop (opField w) with h | h | h | h <;> simp [h]

/-- Settles O4: a word has one `op`, and no two rows have the same. -/
theorem opcodeRowsAreDisjoint : Obligations.OpcodeRowsAreDisjoint := by
  intro w a b ha hb hsa hsb
  exact row_eq_of_opField_eq a ha b hb ((opField_of_selects ha hsa).symm.trans (opField_of_selects hb hsb))

/-- Settles O6, field by field of the shared layout. -/
theorem responseWordFields : Obligations.ResponseWordFields := by
  intro r
  rw [responseWord_eq_packWord]
  refine ⟨packWord_high .., packWord_flag .., packWord_low .., ?_⟩
  cases r.status <;> decide

/-- Settles O17: only the last step of a call appends `Return`, and the counters of READ fit its buffer by the
invariant. -/
theorem responsesAreLegal : Obligations.ResponsesAreLegal := by
  intro s t r hinv h ht
  rcases step_eq_next h with ⟨-, rfl⟩ | ⟨i, -, hexec⟩
  · simp at ht
  · cases i with
    | init =>
      obtain ⟨rfl, hfamily, hr⟩ := (execInit_next hexec).returns ht
      rw [hfamily]
      exact ⟨rfl, rfl, fun _ => hr, nofun, nofun⟩
    | cleanup =>
      obtain ⟨rfl, hfamily, hr⟩ := (execCleanup_next hexec).returns ht
      rw [hfamily]
      exact ⟨rfl, rfl, nofun, nofun, fun _ => hr⟩
    | read n wait =>
      obtain ⟨rfl, hfamily, hpayload, hstatus⟩ := (execRead_next hexec).returns ht
      have hsum : s.x.cnt.toNat + s.x.rem.toNat = s.buf.len := hinv.counters hfamily
      refine ⟨rfl, rfl, by simp [hfamily], fun _ => ?_, by simp [hfamily]⟩
      rw [hpayload, hstatus]
      refine ⟨?_, ?_, rfl, hinv.cntAligned hfamily, by omega⟩
      · split <;> simp
      · split <;> simp_all

/-- Settles O5, by evaluation of each word. -/
theorem sampleWordsDecode : Obligations.SampleWordsDecode := by
  unfold Obligations.SampleWordsDecode
  decide

/-- Settles O8: `step` asks `decode`, and each Accept tests `prepared`. -/
theorem outOfContractIsRefused : Obligations.OutOfContractIsRefused := by
  intro s hs
  refine ⟨fun p rest r hp hd => step_of_invalid hs hp hd, fun h => ?init, fun h n wait => ?read, fun h => ?cleanup⟩
  case init => simp [exec_init_idle hs, stepAcceptInit, h]
  case read => simp [exec_read_idle hs, stepAcceptRead, h]
  case cleanup => simp [exec_cleanup_idle hs, stepAcceptCleanup, h]

/-- Settles O18, by the Accept of INIT. -/
theorem initIsAccepted : Obligations.InitIsAccepted := by
  intro s hs h
  simp [exec_init_idle hs, stepAcceptInit, h, goto, accept, emit]

/-- Settles O50, by the Accept of CLEANUP. -/
theorem cleanupIsAccepted : Obligations.CleanupIsAccepted := by
  intro s hs h
  simp [exec_cleanup_idle hs, stepAcceptCleanup, h, goto, accept, emit]

end Sys2Proof.Proofs
end

section
/-! SUPPORT. INIT step by step: what `exec` answers in each of its FSM states, what its write leaves in SR, and its call
as a run of steps beside its pseudocode (spec/40_init.md). -/

namespace Sys2Proof.Machine

open Sys2Proof.Safety

/-! ### The states along a successful INIT -/

/-- The state after INIT's read of SR (spec/40_init.md R113). -/
def initRead (s : State) : State := goto .iWrsr { afterRead .sr s with x.sr := (envRead s.env .sr).1 }

/-- The state after INIT's write of SR: the error bits of the word just read cleared, `prepared` set (spec/40_init.md
R114). -/
def initWritten (s : State) : State := goto .iRet { afterWrite .sr (clearErrors s.x.sr) s with prepared := true }

/-- The state in which a successful INIT ends, from the state in which its clock was prepared (spec/40_init.md R113 to
R115). -/
def initDone (s : State) : State := ret ⟨.ok, 0, false⟩ (initWritten (initRead s))

/-- The events from the read of SR to the response (spec/40_init.md R117). -/
theorem initDone_trace (s : State) : (initDone s).trace = s.trace ++
    [.regRead 0x04 (envRead s.env .sr).1, .regWrite 0x04 ((envRead s.env .sr).1 &&& 0xFFFFFF9F),
      .ret ⟨.ok, 0, false⟩] := by
  simp [initDone, initWritten, initRead, afterWrite, afterRead, WinReg.offset, offSr, clearErrors]

/-! ### The step of each FSM state -/

section Steps
variable {s : State}

theorem exec_init_iPrep_ok (hs : s.st = .iPrep) (ha : drawPrep s.env = .ok) :
    exec .init s = .next (goto .iRdsr (clkPrepare s).2) := by
  have hanswer : (clkPrepare s).1 = .ok := ha
  simp only [exec, execInit, hs, stepIPrep, hanswer]

theorem exec_init_iPrep_fail {e : Cause} (hs : s.st = .iPrep) (ha : drawPrep s.env = .fail e) :
    exec .init s = .next (goto .iFail { (clkPrepare s).2 with x.cause := e }) := by
  have hanswer : (clkPrepare s).1 = .fail e := ha
  simp only [exec, execInit, hs, stepIPrep, hanswer]

theorem exec_init_iFail (hs : s.st = .iFail) :
    exec .init s = .next (ret ⟨.clockUnavailable, s.x.cause, false⟩ s) := by
  simp only [exec, execInit, hs, stepIFail, raiseOutcome]

theorem exec_init_iRdsr (hs : s.st = .iRdsr) (h : s.cfg.Placed) : exec .init s = .next (initRead s) := by
  simp only [exec, execInit, hs, stepIRdsr_eq s h, initRead]

theorem exec_init_iRdsr_misplaced (hs : s.st = .iRdsr) (h : ¬ s.cfg.Placed) :
    exec .init s = .refused .windowMisplaced := by
  simp only [exec, execInit, hs, stepIRdsr, memRead_misplaced _ _ h, andThen_refused]

theorem exec_init_iWrsr (hs : s.st = .iWrsr) (h : s.cfg.Placed) : exec .init s = .next (initWritten s) := by
  simp only [exec, execInit, hs, stepIWrsr_eq s h, initWritten]

theorem exec_init_iRet (hs : s.st = .iRet) : exec .init s = .next (ret ⟨.ok, 0, false⟩ s) := by
  simp only [exec, execInit, hs, stepIRet]

theorem step_eq_exec_init (h : family s.st = some .init) : step s = exec .init s := step_of_init h

/-- A presented command is the one `step` executes (spec/30_encoding.md R93). -/
theorem step_of_presents {i : Instr} (h : Presents s i) : step s = exec i s := by
  obtain ⟨hs, p, rest, hp, hd⟩ := h
  simp [step, fetch, fetchPresented, family, hs, hp, hd]

end Steps

/-! ### The written status word -/

/-- The word INIT writes has the error bits clear and every other bit as read (spec/40_init.md R114). -/
theorem getLsbD_clearErrors (v : Word) (i : Nat) :
    (clearErrors v).getLsbD i = if i = 5 ∨ i = 6 then false else v.getLsbD i := by
  have hmask : clearErrors v = v &&& ~~~maskErr := rfl
  by_cases hi : i < 32
  · simp only [hmask, BitVec.getLsbD_and, BitVec.getLsbD_not, getLsbD_maskErr, hi]
    by_cases herr : i = 5 ∨ i = 6 <;> simp [herr]
  · simp [BitVec.getLsbD_of_ge _ i (Nat.le_of_not_lt hi)]

/-- With both error bits written as 0, SR is left with both clear and every other bit as the write found it
(spec/10_state.md R44). -/
theorem srAfterWrite_clearErrors (old v : Word) : srAfterWrite old (clearErrors v) = clearErrors old := by
  refine BitVec.eq_of_getLsbD_eq fun i _ => ?_
  rw [getLsbD_srAfterWrite_eq_ite, getLsbD_clearErrors, getLsbD_clearErrors]
  by_cases herr : i = 5 ∨ i = 6 <;> simp [herr]

theorem clearErrors_and_maskErr (v : Word) : clearErrors v &&& maskErr = 0 := by
  have hdisjoint : (0xFFFFFF9F : Word) &&& maskErr = 0 := by decide
  rw [clearErrors, BitVec.and_assoc, hdisjoint]
  exact BitVec.and_zero

/-- The block's write of SR finds what the reference peripheral's own moves made of it (spec/10_state.md R44; log
entry 5). -/
theorem envWrite_win_sr {e : Env} (hk : e.kind = .reference) (v : Word) :
    (envWrite e .sr v).win.sr = srAfterWrite (periphTurn e).win.sr v := by
  simp only [envWrite, hk, refWrite]

/-! ### The pseudocode of the call -/

theorem initHardware_eq (s : State) (h : s.cfg.Placed) : initHardware s = .next (initDone s) := by
  have hread : memRead (s.cfg.base + 0x04) s = .next ((envRead s.env .sr).1, afterRead .sr s) := memRead_sr s h
  have hwrite := memWrite_sr (clearErrors (envRead s.env .sr).1)
    { afterRead .sr s with x.sr := (envRead s.env .sr).1 } h
  rw [initHardware, hread, andThen_next]
  exact congrArg (andThen · _) hwrite

theorem initHardware_misplaced (s : State) (h : ¬ s.cfg.Placed) : initHardware s = .refused .windowMisplaced := by
  rw [initHardware, memRead_misplaced _ _ h, andThen_refused]

section Pseudocode
variable {s : State} (hprep : s.prepared = false)
include hprep

theorem initCall_fail {e : Cause} (ha : drawPrep s.env = .fail e) : initCall s =
    .next (ret ⟨.clockUnavailable, e, false⟩ { (clkPrepare (accept .init s)).2 with x.cause := e }) := by
  have hanswer : (clkPrepare (accept .init s)).1 = .fail e := ha
  simp [initCall, hprep, hanswer, raiseOutcome]

theorem initCall_ok (ha : drawPrep s.env = .ok) : initCall s = initHardware (clkPrepare (accept .init s)).2 := by
  have hanswer : (clkPrepare (accept .init s)).1 = .ok := ha
  simp [initCall, hprep, hanswer]

end Pseudocode

end Sys2Proof.Machine

namespace Sys2Proof.Safety

open Sys2Proof.Machine

/-! ### The call as a run of steps -/

/-- The hardware part: two working states, then the step that returns (spec/40_init.md R113 to R115). -/
theorem busy_init_hardware {s : State} (hs : s.st = .iRdsr) (hplaced : s.cfg.Placed) :
    ∃ t, Busy 2 s t ∧ step t = .next (initDone s) := by
  have hread : step s = .next (initRead s) :=
    (step_eq_exec_init (by rw [hs]; rfl)).trans (exec_init_iRdsr hs hplaced)
  have hwrite : step (initRead s) = .next (initWritten (initRead s)) :=
    (step_eq_exec_init rfl).trans (exec_init_iWrsr rfl hplaced)
  exact ⟨_, (busy_one hread nofun).trans (busy_one hwrite nofun), (step_eq_exec_init rfl).trans (exec_init_iRet rfl)⟩

section Call
variable {s : State} (hp : Presents s .init) (hprep : s.prepared = false)
include hp hprep

theorem step_presented_init : step s = .next (goto .iPrep (accept .init s)) := by
  have hs : s.st = .idle := hp.1
  rw [step_of_presents hp, exec_init_idle hs]
  simp [stepAcceptInit, hprep]

/-- A clock that is prepared: two working states (spec/40_init.md R111). -/
theorem busy_init_prepared (ha : drawPrep s.env = .ok) : Busy 2 s (goto .iRdsr (clkPrepare (accept .init s)).2) := by
  have hstep : step (goto .iPrep (accept .init s)) = .next (goto .iRdsr (clkPrepare (accept .init s)).2) :=
    (step_eq_exec_init rfl).trans (exec_init_iPrep_ok rfl ha)
  exact (busy_one (step_presented_init hp hprep) nofun).trans (busy_one hstep nofun)

/-- The failure of `ClkPrepare` ends the call after 3 steps (spec/40_init.md R112, R117). -/
theorem callEnds_init_fail {e : Cause} (ha : drawPrep s.env = .fail e) :
    CallEnds 3 s (ret ⟨.clockUnavailable, e, false⟩ { (clkPrepare (accept .init s)).2 with x.cause := e }) := by
  have hstep : step (goto .iPrep (accept .init s)) =
      .next (goto .iFail { (clkPrepare (accept .init s)).2 with x.cause := e }) :=
    (step_eq_exec_init rfl).trans (exec_init_iPrep_fail rfl ha)
  have hbusy := (busy_one (step_presented_init hp hprep) nofun).trans (busy_one hstep nofun)
  exact hbusy.callEnds ((step_eq_exec_init rfl).trans (exec_init_iFail rfl)) rfl

/-- With the clock prepared and the window placed the call ends after 5 steps (spec/40_init.md R117). -/
theorem callEnds_init_ok (ha : drawPrep s.env = .ok) (hplaced : s.cfg.Placed) :
    CallEnds 5 s (initDone (clkPrepare (accept .init s)).2) := by
  obtain ⟨t, hbusy, hret⟩ := busy_init_hardware (s := goto .iRdsr (clkPrepare (accept .init s)).2) rfl hplaced
  exact ((busy_init_prepared hp hprep ha).trans hbusy).callEnds hret rfl

/-- A window that is not placed stops the call at its first access (spec/92_eei_decisions.md D8). -/
theorem run_init_misplaced (ha : drawPrep s.env = .ok) (hplaced : ¬ s.cfg.Placed) :
    run 3 s = .refused .windowMisplaced := by
  obtain ⟨hrun, -⟩ := busy_init_prepared hp hprep ha
  have hstop : step (goto .iRdsr (clkPrepare (accept .init s)).2) = .refused .windowMisplaced :=
    (step_eq_exec_init rfl).trans (exec_init_iRdsr_misplaced rfl hplaced)
  rw [run_add 2 1, hrun, andThen_next, run_one, hstop]

end Call

end Sys2Proof.Safety
end

section
/-! PROOFS of the statements about INIT: its calls, its steps, and what it leaves in the reference peripheral's SR
(spec/40_init.md). -/

namespace Sys2Proof.Proofs

open Sys2Proof.Machine Sys2Proof.Safety

/-- Settles O25: the clock facility answers `ok` or `fail(e)`, and either answer fixes the rest of the call. -/
theorem initCallTrace : Obligations.InitCallTrace := by
  intro s hp hprep hplaced
  cases ha : drawPrep s.env with
  | ok =>
    refine .inl ⟨(envRead (clkPrepare (accept .init s)).2.env .sr).1, _, callEnds_init_ok hp hprep ha hplaced, rfl,
      rfl, ?_⟩
    rw [initDone_trace]
    simp [ha]
  | fail e =>
    refine .inr ⟨e, _, callEnds_init_fail hp hprep ha, hprep, rfl, ?_⟩
    simp [ha]

/-- Settles O26: the run ends as the pseudocode does in each way a call can go: refused at Accept, out of clock, stopped
at a misplaced window, or done. -/
theorem initStepsMatchPseudocode : Obligations.InitStepsMatchPseudocode := by
  intro s hp
  cases hprep : s.prepared with
  | true =>
    have hs : s.st = .idle := hp.1
    refine ⟨1, by decide, by decide, ?_⟩
    rw [run_one, step_of_presents hp, exec_init_idle hs]
    simp [stepAcceptInit, initCall, hprep]
  | false =>
    cases ha : drawPrep s.env with
    | fail e =>
      obtain ⟨-, hrun, -⟩ := callEnds_init_fail hp hprep ha
      exact ⟨3, by decide, by decide, hrun.trans (initCall_fail hprep ha).symm⟩
    | ok =>
      rw [initCall_ok hprep ha]
      by_cases hplaced : s.cfg.Placed
      · obtain ⟨-, hrun, -⟩ := callEnds_init_ok hp hprep ha hplaced
        exact ⟨5, by decide, by decide, hrun.trans (initHardware_eq (clkPrepare (accept .init s)).2 hplaced).symm⟩
      · have hrun := run_init_misplaced hp hprep ha hplaced
        exact ⟨3, by decide, by decide,
          hrun.trans (initHardware_misplaced (clkPrepare (accept .init s)).2 hplaced).symm⟩

/-- Settles O58: SR is left as the word that the write found, with its error bits clear. -/
theorem initLeavesReferenceErrorsClear : Obligations.InitLeavesReferenceErrorsClear := by
  intro s hs hplaced hk
  have hsr : (initWritten s).env.win.sr = clearErrors (periphTurn s.env).win.sr :=
    (envWrite_win_sr hk _).trans (srAfterWrite_clearErrors _ _)
  refine ⟨_, exec_init_iWrsr hs hplaced, ?_⟩
  rw [hsr]
  refine ⟨clearErrors_and_maskErr _, fun i _ h5 h6 => ?_⟩
  rw [getLsbD_clearErrors, if_neg (not_or.2 ⟨h5, h6⟩)]

/-- Settles O19, one answer of the clock facility at a time. -/
theorem initPreparesTheClock : Obligations.InitPreparesTheClock := by
  intro s hs
  refine ⟨fun ha => ?ok, fun e ha => ?fail⟩
  case ok => simp [exec_init_iPrep_ok hs ha, goto, clkPrepare, emit, ha]
  case fail => simp [exec_init_iPrep_fail hs ha, goto, clkPrepare, emit, ha]

/-- Settles O20, by the step of `S_I_FAIL`. -/
theorem initReportsClockFailure : Obligations.InitReportsClockFailure :=
  fun _ hs => exec_init_iFail hs

/-- Settles O21, by the read of SR through a placed window. -/
theorem initReadsStatus : Obligations.InitReadsStatus :=
  fun _ hs hplaced => exec_init_iRdsr hs hplaced

/-- Settles O22: the step by the write of SR through a placed window, the word bit by bit. -/
theorem initClearsTheErrorBits : Obligations.InitClearsTheErrorBits :=
  fun s hs hplaced => ⟨exec_init_iWrsr hs hplaced, getLsbD_clearErrors s.x.sr⟩

/-- Settles O23; the invariant says that `prepared` is set in `S_I_RET`. -/
theorem initReturnsOk : Obligations.InitReturnsOk :=
  fun _ hs => ⟨exec_init_iRet hs, by decide, fun hinv => hinv.preparedFits true (by rw [hs]; rfl)⟩

end Sys2Proof.Proofs
end

section
/-! SUPPORT. READ step by step: what `exec` answers in each of its FSM states, and the bits its masks name
(spec/41_read.md section 2). -/

namespace Sys2Proof.Machine

/-! ### The step of each FSM state -/

section Steps
variable {s : State} {n : Nat} {wait : Bool}

theorem exec_read_idle_prepared (hs : s.st = .idle) (hp : s.prepared = true) : exec (.read n wait) s =
    .next (goto (readEntry n)
      (latchOperands n wait { accept (.read n wait) s with buf := hostBuffer n (presentedBytes s) })) := by
  rw [exec_read_idle hs, stepAcceptRead, if_pos hp]

theorem exec_read_rClken (hs : s.st = .rClken) : exec (.read n wait) s = .next (goto .rRdcr (clkEnable s)) := by
  simp only [exec, execRead, hs, stepRClken]

theorem exec_read_rRdcr (hs : s.st = .rRdcr) (h : s.cfg.Placed) : exec (.read n wait) s =
    .next (goto .rWrcr { afterRead .cr s with x.crSaved := (envRead s.env .cr).1 }) := by
  simp only [exec, execRead, hs, stepRRdcr_eq s h]

theorem exec_read_rWrcr (hs : s.st = .rWrcr) (h : s.cfg.Placed) : exec (.read n wait) s =
    .next (goto .rRdsr (afterWrite .cr (withEnable s.x.crSaved) s)) := by
  simp only [exec, execRead, hs, stepRWrcr_eq s h]

/-- The state after a read of SR in the loop: the answer is kept in `sr`, and `tmo` is what the step makes it
(spec/41_read.md R126, R128). -/
def seeStatus (tmo : Nat) (s : State) : State :=
  { afterRead .sr s with x.sr := (envRead s.env .sr).1, x.tmo := tmo }

/-- The first status read of a pass starts the poll phase on zero with `wait` (spec/41_read.md R126). -/
theorem exec_read_rRdsr_poll (hs : s.st = .rRdsr) (h : s.cfg.Placed)
    (hv : (envRead s.env .sr).1 = 0 ∧ s.x.wait = true) :
    exec (.read n wait) s = .next (goto .rPoll (seeStatus s.cfg.tPoll s)) := by
  simp only [exec, execRead, hs, stepRRdsr_eq s h, afterFirstRead, if_pos hv, seeStatus]

/-- Every other first status word is evaluated (spec/41_read.md R126). -/
theorem exec_read_rRdsr_next (hs : s.st = .rRdsr) (h : s.cfg.Placed)
    (hv : ¬ ((envRead s.env .sr).1 = 0 ∧ s.x.wait = true)) :
    exec (.read n wait) s = .next (goto (nextOf (envRead s.env .sr).1) (seeStatus s.x.tmo s)) := by
  simp only [exec, execRead, hs, stepRRdsr_eq s h, afterFirstRead, if_neg hv, seeStatus]

/-- A re-read of zero with budget left polls again (spec/41_read.md R128). -/
theorem exec_read_rPoll_again (hs : s.st = .rPoll) (h : s.cfg.Placed)
    (hv : (envRead s.env .sr).1 = 0 ∧ s.x.tmo - 1 ≠ 0) :
    exec (.read n wait) s = .next (goto .rPoll (seeStatus (s.x.tmo - 1) s)) := by
  simp only [exec, execRead, hs, stepRPoll_eq s h, afterReRead, if_pos hv, seeStatus]

/-- Every other re-read is evaluated (spec/41_read.md R128). -/
theorem exec_read_rPoll_next (hs : s.st = .rPoll) (h : s.cfg.Placed)
    (hv : ¬ ((envRead s.env .sr).1 = 0 ∧ s.x.tmo - 1 ≠ 0)) :
    exec (.read n wait) s = .next (goto (nextOf (envRead s.env .sr).1) (seeStatus (s.x.tmo - 1) s)) := by
  simp only [exec, execRead, hs, stepRPoll_eq s h, afterReRead, if_neg hv, seeStatus]

theorem exec_read_rHwerr (hs : s.st = .rHwerr) : exec (.read n wait) s =
    .next (goto .rRestore (raiseOutcome (.hardwareErrorObserved s.x.sr) s)) := by
  simp only [exec, execRead, hs, stepRHwerr]

/-- The state after the read of DR (spec/41_read.md R132). -/
def takeWord (s : State) : State := goto .rStore { afterRead .dr s with x.word := (envRead s.env .dr).1 }

theorem exec_read_rRddr (hs : s.st = .rRddr) (h : s.cfg.Placed) : exec (.read n wait) s = .next (takeWord s) := by
  simp only [exec, execRead, hs, stepRRddr_eq s h, takeWord]

/-- The state after the store of `word` at `cnt` (spec/41_read.md R133). -/
def storeWord (s : State) : State :=
  { s with
    st := afterStore (s.x.rem - 4)
    x := { s.x with cnt := s.x.cnt + 4, rem := s.x.rem - 4 }
    buf := { s.buf with bytes := writeWord s.cfg.byteOrder s.buf.bytes s.x.cnt.toNat s.x.word }
    trace := s.trace ++ [Safety.storeEvent s.cfg.byteOrder s.x.cnt.toNat s.x.word] }

theorem exec_read_rStore (hs : s.st = .rStore) (h : s.x.cnt.toNat + 4 ≤ s.buf.len) :
    exec (.read n wait) s = .next (storeWord s) := by
  simp only [exec, execRead, hs, stepRStore_eq s h]
  rfl

/-- Past the end of the buffer the store does not go on (spec/00_scope.md R16). -/
theorem exec_read_rStore_room {t : State} (hs : s.st = .rStore) (h : exec (.read n wait) s = .next t) :
    s.x.cnt.toNat + 4 ≤ s.buf.len := by
  simp only [exec, execRead, hs] at h
  exact stepRStore_room h

theorem exec_read_rRestore (hs : s.st = .rRestore) (h : s.cfg.Placed) : exec (.read n wait) s =
    .next (goto .rClkdis (afterWrite .cr s.x.crSaved s)) := by
  simp only [exec, execRead, hs, stepRRestore_eq s h]

theorem exec_read_rClkdis (hs : s.st = .rClkdis) : exec (.read n wait) s = .next (goto .rRet (clkDisable s)) := by
  simp only [exec, execRead, hs, stepRClkdis]

/-- What a READ returns, from its latched registers (spec/41_read.md R136). -/
def readResponse (s : State) : Response :=
  ⟨if s.x.cnt = 0 ∧ s.x.wait = true then .noDataTimeout else .ok, s.x.cnt, s.hwerr⟩

theorem readResponse_timeout (hc : s.x.cnt = 0) (hw : s.x.wait = true) :
    readResponse s = ⟨.noDataTimeout, 0, s.hwerr⟩ := by
  simp [readResponse, hc, hw]

theorem readResponse_ok (h : ¬ (s.x.cnt = 0 ∧ s.x.wait = true)) : readResponse s = ⟨.ok, s.x.cnt, s.hwerr⟩ := by
  rw [readResponse, if_neg h]

/-- The pseudocode's end of READ returns that response (spec/41_read.md R120, R136). -/
theorem readReturn_eq (s : State) : readReturn s = ret (readResponse s) s := by
  unfold readReturn
  split
  · rename_i h
    rw [readResponse_timeout h.1 h.2]
    rfl
  · rename_i h
    rw [readResponse_ok h]

theorem exec_read_rRet (hs : s.st = .rRet) : exec (.read n wait) s = .next (ret (readResponse s) s) := by
  have htest : readTimedOut s.x.cnt s.x.wait = true ↔ s.x.cnt = 0 ∧ s.x.wait = true := by simp [readTimedOut]
  simp only [exec, execRead, hs, stepRRet, htest, ← readReturn_eq, readReturn]
  split <;> rfl

/-- In a working state of READ `step` is the meaning of READ (spec/10_state.md R20). -/
theorem step_eq_exec_read (h : family s.st = some .read) : step s = exec (.read s.buf.len s.x.wait) s := step_of_read h

end Steps

/-! ### The bits the masks name -/

/-- The detector sees bit 5 or bit 6 (spec/60_exceptions.md R174). -/
theorem and_maskErr_ne_zero {v : Word} : v &&& maskErr ≠ 0 ↔ v.getLsbD 5 = true ∨ v.getLsbD 6 = true := by
  rw [maskErr_eq_twoPow, BitVec.and_or_distrib_left, BitVec.and_twoPow, BitVec.and_twoPow]
  cases v.getLsbD 5 <;> cases v.getLsbD 6 <;> decide

/-- READ sets bit 2 of CR and no other (spec/41_read.md R124). -/
theorem getLsbD_withEnable (c : Word) (i : Nat) :
    (withEnable c).getLsbD i = if i = 2 then true else c.getLsbD i := by
  rw [withEnable, maskEn_eq_twoPow, BitVec.getLsbD_or, BitVec.getLsbD_twoPow]
  by_cases hi : i = 2 <;> simp [hi, eq_comm]

theorem errDetect_iff {v : Word} : errDetect v = true ↔ v &&& maskErr ≠ 0 := bne_iff_ne

theorem nextOf_error {v : Word} (h : v &&& maskErr ≠ 0) : nextOf v = .rHwerr := by
  rw [nextOf, if_pos (errDetect_iff.2 h)]

theorem nextOf_zero : nextOf 0#32 = .rRestore := by decide

theorem nextOf_data {v : Word} (hv : v ≠ 0) (h : v &&& maskErr = 0) : nextOf v = .rRddr := by
  rw [nextOf, if_neg fun he => errDetect_iff.1 he h, if_neg hv]

end Sys2Proof.Machine
end

section
/-! PROOFS of the statements about READ's single steps (spec/41_read.md section 2). -/

namespace Sys2Proof.Proofs

open Sys2Proof.Machine Sys2Proof.Safety

/-- Settles O27, by the Accept of READ; a length below `2 ^ 29` fits `rem`. -/
theorem readIsAccepted : Obligations.ReadIsAccepted :=
  fun _ _ _ hs hp hn => ⟨exec_read_idle_prepared hs hp, by rw [BitVec.toNat_ofNat, Nat.mod_eq_of_lt hn]⟩

/-- Settles O29, by the step of `S_R_CLKEN`. -/
theorem readGatesTheClockOn : Obligations.ReadGatesTheClockOn :=
  fun _ _ _ hs => exec_read_rClken hs

/-- Settles O30, by the read of CR through a placed window. -/
theorem readSavesTheControlRegister : Obligations.ReadSavesTheControlRegister :=
  fun _ _ _ hs hplaced => exec_read_rRdcr hs hplaced

/-- Settles O31: the step by the write of CR through a placed window, the word bit by bit. -/
theorem readSetsTheEnableBit : Obligations.ReadSetsTheEnableBit :=
  fun s _ _ hs hplaced => ⟨exec_read_rWrcr hs hplaced, getLsbD_withEnable s.x.crSaved⟩

/-- Settles O32, by what the first status read of a pass answers. -/
theorem readFirstStatus : Obligations.ReadFirstStatus :=
  fun _ _ _ hs hplaced => ⟨exec_read_rRdsr_poll hs hplaced, exec_read_rRdsr_next hs hplaced⟩

/-- Settles O33; with `tmo` at least 1, budget is left after this re-read exactly when `tmo` is not 1. -/
theorem readPollsOnce : Obligations.ReadPollsOnce := by
  intro s n wait hs hplaced htmo
  have hleft : s.x.tmo ≠ 1 ↔ s.x.tmo - 1 ≠ 0 := by omega
  rw [hleft]
  refine ⟨fun hv => ?_, exec_read_rPoll_next hs hplaced⟩
  rw [exec_read_rPoll_again hs hplaced hv, ← hs]
  rfl

/-- Settles O34, by the three rows of `next(v)` and the detector bit by bit. -/
theorem statusEvaluationOrder : Obligations.StatusEvaluationOrder :=
  fun _ => ⟨nextOf_error, fun hv => hv ▸ nextOf_zero, nextOf_data, and_maskErr_ne_zero⟩

/-- Settles O35, by the step of `S_R_HWERR`. -/
theorem readSignalsHardwareError : Obligations.ReadSignalsHardwareError :=
  fun _ _ _ hs => exec_read_rHwerr hs

/-- Settles O36, by the read of DR through a placed window. -/
theorem readTakesTheDataWord : Obligations.ReadTakesTheDataWord :=
  fun _ _ _ hs hplaced => exec_read_rRddr hs hplaced

/-- Settles O37, by the store with room in the buffer, and what a read of each index then gives. -/
theorem readStoresTheWord : Obligations.ReadStoresTheWord := by
  intro s n wait hs hroom
  refine ⟨_, exec_read_rStore hs hroom, ?_, rfl, rfl, fun k hk => ?_, fun a ha => ?_, rfl⟩
  · simp only [storeWord, afterStore, BitVec.le_def]
    rfl
  · refine (readByte_writeWord_inside _ _ _ _ _ hk).trans (congrArg some ?_)
    cases s.cfg.byteOrder <;> rfl
  · exact readByte_writeWord_outside _ _ _ _ _ ha

/-- Settles O38, by the write of CR through a placed window. -/
theorem readRestoresTheControlRegister : Obligations.ReadRestoresTheControlRegister :=
  fun _ _ _ hs hplaced => exec_read_rRestore hs hplaced

/-- Settles O39, by the step of `S_R_CLKDIS`. -/
theorem readGatesTheClockOff : Obligations.ReadGatesTheClockOff :=
  fun _ _ _ hs => exec_read_rClkdis hs

/-- Settles O40, one row of the response at a time. -/
theorem readReturnsTheCount : Obligations.ReadReturnsTheCount := by
  intro s n wait hs
  rw [exec_read_rRet hs]
  refine ⟨fun hc => ?_, fun hc hw => ?_, fun hc hw => ?_⟩
  · rw [readResponse_ok fun h => hc h.1]
    rfl
  · rw [readResponse_ok (by simp [hw]), hc]
    rfl
  · rw [readResponse_timeout hc hw]
    rfl

/-- Settles O42: a store that goes on had room in the buffer, and writes the four bytes at `cnt`. -/
theorem readStoreFrame : Obligations.ReadStoreFrame := by
  intro s t n wait h hs
  rw [exec_read_rStore hs (exec_read_rStore_room hs h)] at h
  cases h
  exact ⟨rfl, rfl, rfl, rfl, rfl, rfl, rfl, rfl, rfl, rfl, rfl, rfl, rfl,
    fun a ha => readByte_writeWord_outside _ _ _ _ _ ha⟩

end Sys2Proof.Proofs
end

section
/-! SUPPORT. A trace of READ seen from the environment: which events it answers and what they leave of it. Every
environment answers a trace of the grammar (spec/41_read.md R139), and how long such a trace can be (R140). -/

namespace Sys2Proof.Safety

open Sys2Proof.Machine

/-! ### The environment along a trace of READ -/

/-- The register at an offset that READ reads or writes (spec/10_state.md R30). -/
def regOf (off : Nat) : WinReg :=
  match off with
  | 0x00 => .cr
  | 0x04 => .sr
  | _ => .dr

/-- The environment after one event of READ: its transactions and the clock's two operations (spec/10_state.md R46,
R47). -/
def envNext (e : Env) (ev : Event) : Env :=
  match ev with
  | .regRead off _ => (envRead e (regOf off)).2
  | .regWrite off v => envWrite e (regOf off) v
  | .clkEnable => { e with clkEnabled := true }
  | .clkDisable => { e with clkEnabled := false }
  | .accept _ | .clkPrepare _ | .clkUnprepare | .bufWrite _ _ _ _ _ | .hwError _ | .ret _ => e

/-- The environment after a trace of READ. -/
def envAfter (e : Env) (tr : List Event) : Env := tr.foldl envNext e

/-- The environment's answer is the one the event shows. -/
def Answered (e : Env) (ev : Event) : Prop :=
  match ev with
  | .regRead off v => (envRead e (regOf off)).1 = v
  | .regWrite _ _ | .clkEnable | .clkDisable | .accept _ | .clkPrepare _ | .clkUnprepare | .bufWrite _ _ _ _ _
  | .hwError _ | .ret _ => True

/-- From `e` on, the environment gives the answers that the trace shows. -/
def Answers (e : Env) (tr : List Event) : Prop :=
  match tr with
  | [] => True
  | ev :: t => Answered e ev ∧ Answers (envNext e ev) t

/-- What an event shows of a register by a read. -/
def readOf (r : WinReg) (ev : Event) : Option Word :=
  match ev with
  | .regRead off v => if regOf off = r then some v else none
  | .regWrite _ _ | .clkEnable | .clkDisable | .accept _ | .clkPrepare _ | .clkUnprepare | .bufWrite _ _ _ _ _
  | .hwError _ | .ret _ => none

/-- The words that the reads of a register give in a trace, in order. -/
def readsOf (r : WinReg) (tr : List Event) : List Word := tr.filterMap (readOf r)

section Rules
variable (e : Env) (ev : Event) (tr tr' : List Event) (v : Word)

@[simp] theorem envAfter_nil : envAfter e [] = e := rfl
@[simp] theorem envAfter_cons : envAfter e (ev :: tr) = envAfter (envNext e ev) tr := rfl
@[simp] theorem envAfter_append : envAfter e (tr ++ tr') = envAfter (envAfter e tr) tr' := List.foldl_append

@[simp] theorem answers_nil : Answers e [] := trivial
@[simp] theorem answers_cons : Answers e (ev :: tr) ↔ Answered e ev ∧ Answers (envNext e ev) tr := Iff.rfl

@[simp] theorem answers_append : Answers e (tr ++ tr') ↔ Answers e tr ∧ Answers (envAfter e tr) tr' := by
  induction tr generalizing e with
  | nil => simp
  | cons ev tr ih => simp [ih, and_assoc]

@[simp] theorem envNext_srRead : envNext e (srRead v) = (envRead e .sr).2 := rfl
@[simp] theorem envNext_readDr : envNext e (.regRead 0x08 v) = (envRead e .dr).2 := rfl
@[simp] theorem envNext_hwError : envNext e (.hwError v) = e := rfl
@[simp] theorem envNext_storeEvent (o : ByteOrder) (i : Nat) : envNext e (storeEvent o i v) = e := rfl

@[simp] theorem readsOf_nil (r : WinReg) : readsOf r [] = [] := rfl
@[simp] theorem readsOf_append (r : WinReg) : readsOf r (tr ++ tr') = readsOf r tr ++ readsOf r tr' :=
  List.filterMap_append
@[simp] theorem readsOf_cons (r : WinReg) : readsOf r (ev :: tr) = (readOf r ev).toList ++ readsOf r tr := by
  rw [readsOf, List.filterMap_cons]
  cases readOf r ev <;> rfl
@[simp] theorem readOf_srRead : readOf .sr (srRead v) = some v := rfl
@[simp] theorem readOf_srRead_ne {r : WinReg} (hr : r ≠ .sr) : readOf r (srRead v) = none := if_neg hr.symm
@[simp] theorem readOf_readDr : readOf .dr (.regRead 0x08 v) = some v := rfl
@[simp] theorem readOf_hwError (r : WinReg) : readOf r (.hwError v) = none := rfl
@[simp] theorem readsOf_replicate_srRead (j : Nat) :
    readsOf .sr (List.replicate j (srRead v)) = List.replicate j v := by
  induction j with
  | zero => rfl
  | succ j ih => simp [List.replicate_succ, ih]
@[simp] theorem readsOf_replicate_srRead_ne {r : WinReg} (hr : r ≠ .sr) (j : Nat) :
    readsOf r (List.replicate j (srRead v)) = [] := by
  induction j with
  | zero => rfl
  | succ j ih => simp [List.replicate_succ, ih, hr]
@[simp] theorem readOf_storeEvent (r : WinReg) (o : ByteOrder) (i : Nat) : readOf r (storeEvent o i v) = none := rfl

end Rules

theorem envNext_kind (e : Env) (ev : Event) : (envNext e ev).kind = e.kind := by
  cases ev with
  | regRead off v => exact envRead_kind e _
  | regWrite off v => exact envWrite_kind e _ v
  | _ => rfl

@[simp] theorem envAfter_kind (e : Env) (tr : List Event) : (envAfter e tr).kind = e.kind := by
  induction tr generalizing e with
  | nil => rfl
  | cons ev tr ih => exact (ih _).trans (envNext_kind e ev)

/-! ### The status reads of a pass -/

/-- The re-reads of a poll phase: `j` zeros, then `v` (spec/41_read.md R128). -/
def reReads (j : Nat) (v : Word) : List Event := List.replicate j (srRead 0) ++ [srRead v]

theorem length_reReads (j : Nat) (v : Word) : (reReads j v).length = j + 1 := by simp [reReads]

/-- The whole budget read as zero is a poll phase that ends in a zero. -/
theorem reReads_exhausted (j : Nat) : reReads j 0 = List.replicate (j + 1) (srRead 0) := List.replicate_succ'.symm

section Status
variable {budget : Nat} {wait : Bool} {v : Word} {evs : List Event}

/-- A pass evaluates its first status word, or polls and evaluates the first nonzero re-read or the last one the budget
allows (spec/41_read.md R126, R128). -/
theorem statusTrace_iff (hb : 1 ≤ budget) : StatusTrace budget wait v evs ↔
    (¬ (v = 0 ∧ wait = true) ∧ evs = [srRead v]) ∨
    (wait = true ∧ ∃ j, j < budget ∧ (v = 0 → j + 1 = budget) ∧ evs = srRead 0 :: reReads j v) := by
  constructor
  · intro h
    cases h with
    | ready v hv => exact .inl ⟨fun hz => hv hz.1, rfl⟩
    | empty hw => exact .inl ⟨by simp [hw], rfl⟩
    | polled v j hw hv hj => exact .inr ⟨hw, j, by omega, fun hz => absurd hz hv, rfl⟩
    | exhausted hw =>
      refine .inr ⟨hw, budget - 1, by omega, fun _ => by omega, ?_⟩
      rw [reReads_exhausted, Nat.sub_add_cancel hb]
  · rintro (⟨hv, rfl⟩ | ⟨hw, j, hj, hv, rfl⟩)
    · by_cases hz : v = 0
      · subst hz
        exact .empty (by simpa using hv)
      · exact .ready v hz
    · by_cases hz : v = 0
      · subst hz
        rw [reReads_exhausted, hv rfl]
        exact .exhausted hw
      · exact .polled v j hw hz (by omega)

theorem StatusTrace.length_le (hb : 1 ≤ budget) (h : StatusTrace budget wait v evs) : evs.length ≤ 1 + budget := by
  rcases (statusTrace_iff hb).1 h with ⟨-, rfl⟩ | ⟨-, j, hj, -, rfl⟩
  · exact Nat.le_add_right _ _
  · rw [List.length_cons, length_reReads]
    omega

/-- Without `wait` a pass reads SR once (spec/41_read.md R140). -/
theorem StatusTrace.length_eq_one (hb : 1 ≤ budget) (h : StatusTrace budget false v evs) : evs.length = 1 := by
  rcases (statusTrace_iff hb).1 h with ⟨-, rfl⟩ | ⟨hw, -⟩
  · rfl
  · cases hw

/-- A pass reads SR only until it has its status word. -/
theorem StatusTrace.reads_dr (h : StatusTrace budget wait v evs) : readsOf .dr evs = [] := by
  cases h <;> simp

end Status

/-! ### Every environment answers a trace of the grammar -/

theorem exists_reReads {budget : Nat} (hb : 1 ≤ budget) (e : Env) :
    ∃ j v, j < budget ∧ (v = 0 → j + 1 = budget) ∧ Answers e (reReads j v) := by
  induction budget, hb using Nat.le_induction generalizing e with
  | base => exact ⟨0, _, by decide, fun _ => rfl, rfl, trivial⟩
  | succ b hb ih =>
    by_cases hz : (envRead e .sr).1 = 0
    · obtain ⟨j, v, hj, hv, ha⟩ := ih (envRead e .sr).2
      exact ⟨j + 1, v, by omega, fun h => by rw [hv h], hz, ha⟩
    · exact ⟨0, _, by omega, fun h => absurd h hz, rfl, trivial⟩

theorem exists_statusTrace {budget : Nat} (hb : 1 ≤ budget) (wait : Bool) (e : Env) :
    ∃ v evs, StatusTrace budget wait v evs ∧ Answers e evs := by
  by_cases hpoll : (envRead e .sr).1 = 0 ∧ wait = true
  · obtain ⟨j, v, hj, hv, ha⟩ := exists_reReads hb (envRead e .sr).2
    exact ⟨v, _, (statusTrace_iff hb).2 (.inr ⟨hpoll.2, j, hj, hv, rfl⟩), hpoll.1, ha⟩
  · exact ⟨_, _, (statusTrace_iff hb).2 (.inl ⟨hpoll, rfl⟩), rfl, trivial⟩

theorem exists_loopTrace {budget : Nat} (hb : 1 ≤ budget) (wait : Bool) (o : ByteOrder) (n d k : Nat)
    (hk : k + d = n / 4) (e : Env) : ∃ tr p h, LoopTrace budget wait o n k tr p h ∧ Answers e tr := by
  induction d generalizing k e with
  | zero => exact ⟨_, _, _, .full k hk, trivial⟩
  | succ d ih =>
    have hlt : k < n / 4 := by omega
    obtain ⟨v, status, hs, ha⟩ := exists_statusTrace hb wait e
    by_cases herr : v &&& 0x00000060 = 0
    · by_cases hz : v = 0
      · subst hz
        exact ⟨_, _, _, .stopEmpty k status hlt hs, ha⟩
      · obtain ⟨rest, p, h, hr, har⟩ := ih (k + 1) (by omega) (envRead (envAfter e status) .dr).2
        refine ⟨_, p, h, .produce k v (envRead (envAfter e status) .dr).1 status rest p h hlt hs hz herr hr, ?_⟩
        exact (answers_append _ _ _).2 ⟨ha, rfl, trivial, har⟩
    · exact ⟨_, _, _, .stopError k v status hlt hs herr, (answers_append _ _ _).2 ⟨ha, trivial, trivial⟩⟩

/-- The events of a READ of at least 4 bytes before its loop; `c` is the word it reads from CR (spec/41_read.md
R139). -/
def readOpening (n : Nat) (wait : Bool) (c : Word) : List Event :=
  [.accept (.read n wait), .clkEnable, .regRead 0x00 c, .regWrite 0x00 (c ||| 0x00000004)]

/-- Its events after the loop, with the response `r` (spec/41_read.md R139). -/
def readClosing (c : Word) (r : Response) : List Event := [.regWrite 0x00 c, .clkDisable, .ret r]

/-- What a READ presented to this environment reads from CR: the word before its first write. -/
def crBefore (e : Env) : Word := (envRead { e with clkEnabled := true } .cr).1

theorem answers_long {e : Env} {n : Nat} {wait : Bool} {c : Word} {loop : List Event} {r : Response} :
    Answers e (readOpening n wait c ++ loop ++ readClosing c r) ↔
      crBefore e = c ∧ Answers (envAfter e (readOpening n wait c)) loop := by
  have hopening : Answers e (readOpening n wait c) ↔ crBefore e = c := by
    simp only [readOpening, answers_cons, answers_nil, Answered, envNext, true_and, and_true]
    rfl
  have hclosing (e' : Env) : Answers e' (readClosing c r) := ⟨trivial, trivial, trivial, trivial⟩
  rw [answers_append, answers_append, hopening]
  exact and_iff_left (hclosing _)

/-- SR and DR are read in the loop only (spec/41_read.md R126, R128, R132). -/
theorem readsOf_long {n : Nat} {wait : Bool} {c : Word} {loop : List Event} {r : Response} {reg : WinReg}
    (hreg : reg ≠ .cr) : readsOf reg (readOpening n wait c ++ loop ++ readClosing c r) = readsOf reg loop := by
  have houtside : readsOf reg (readOpening n wait c) = [] ∧ readsOf reg (readClosing c r) = [] := by
    cases reg with
    | cr => exact absurd rfl hreg
    | sr | dr => exact ⟨rfl, rfl⟩
  rw [readsOf_append, readsOf_append, houtside.1, houtside.2, List.nil_append, List.append_nil]

/-- Whatever the environment answers, it answers some trace of the grammar (spec/41_read.md R139). -/
theorem exists_readTrace {budget : Nat} (hb : 1 ≤ budget) (o : ByteOrder) (n : Nat) (wait : Bool) (e : Env) :
    ∃ tr, ReadTrace budget o n wait tr ∧ Answers e tr := by
  by_cases hn : n < 4
  · exact ⟨_, .short hn, trivial, trivial, trivial⟩
  · obtain ⟨loop, p, h, hl, ha⟩ :=
      exists_loopTrace hb wait o n (n / 4) 0 (Nat.zero_add _) (envAfter e (readOpening n wait (crBefore e)))
    exact ⟨_, .long (crBefore e) loop p h (Nat.le_of_not_lt hn) hl, answers_long.2 ⟨rfl, ha⟩⟩

/-! ### The bounds -/

theorem countSr_append (tr tr' : List Event) : countSr (tr ++ tr') = countSr tr + countSr tr' := by
  induction tr with
  | nil => simp [countSr]
  | cons ev tr ih => cases ev <;> simp [countSr, ih, Nat.add_assoc]

theorem countSr_le_length (tr : List Event) : countSr tr ≤ tr.length := by
  induction tr with
  | nil => exact Nat.le_refl _
  | cons ev tr ih =>
    cases ev with
    | regRead off v =>
      simp only [countSr, List.length_cons]
      split <;> omega
    | _ => exact Nat.le_succ_of_le ih

section Bounds
variable {budget b n k p : Nat} {wait h : Bool} {o : ByteOrder} {tr : List Event}
  (hb : ∀ v evs, StatusTrace budget wait v evs → evs.length ≤ b)
include hb

/-- The passes that room is left for, each with at most `b` status reads and two more steps (spec/41_read.md R140). -/
theorem LoopTrace.bounds (hl : LoopTrace budget wait o n k tr p h) :
    tr.length ≤ (n / 4 - k) * (b + 2) ∧ countSr tr ≤ (n / 4 - k) * b := by
  induction hl with
  | full => exact ⟨Nat.zero_le _, Nat.zero_le _⟩
  | stopError k v status hk hs =>
    have hpass := hb _ _ hs
    have hcount := countSr_le_length status
    have hleft : n / 4 - k = n / 4 - (k + 1) + 1 := by omega
    simp only [hleft, Nat.add_one_mul (n / 4 - (k + 1)), List.length_append, List.length_singleton,
      countSr_append, countSr]
    omega
  | stopEmpty k status hk hs =>
    have hpass := hb _ _ hs
    have hcount := countSr_le_length status
    have hleft : n / 4 - k = n / 4 - (k + 1) + 1 := by omega
    simp only [hleft, Nat.add_one_mul (n / 4 - (k + 1))]
    omega
  | produce k v w status rest p h hk hs hv he hr ih =>
    have hpass := hb _ _ hs
    have hcount := countSr_le_length status
    have hdata : countSr (.regRead 0x08 w :: storeEvent o (4 * k) w :: rest) = countSr rest := Nat.zero_add _
    have hleft : n / 4 - k = n / 4 - (k + 1) + 1 := by omega
    simp only [hleft, Nat.add_one_mul (n / 4 - (k + 1)), List.length_append, List.length_cons, countSr_append, hdata]
    omega

theorem ReadTrace.countSr_le (hr : ReadTrace budget o n wait tr) : countSr tr ≤ n / 4 * b := by
  cases hr with
  | short => exact Nat.zero_le _
  | long c loop p h hn hl =>
    obtain ⟨-, hcount⟩ := hl.bounds hb
    simpa [countSr_append, countSr] using hcount

end Bounds

/-- The step bound of R140 on the grammar: one event is one step. -/
theorem ReadTrace.length_le {budget n : Nat} {o : ByteOrder} {wait : Bool} {tr : List Event} (hb : 1 ≤ budget)
    (hr : ReadTrace budget o n wait tr) : tr.length ≤ if n < 4 then 2 else 7 + n / 4 * (budget + 3) := by
  cases hr with
  | short hn => rw [if_pos hn]; rfl
  | long c loop p h hn hl =>
    obtain ⟨hloop, -⟩ := hl.bounds fun _ _ hs => hs.length_le hb
    rw [if_neg (Nat.not_lt.2 hn)]
    simp only [List.length_append, List.length_cons, List.length_nil]
    rw [Nat.sub_zero, show 1 + budget + 2 = budget + 3 by omega] at hloop
    omega

/-- A READ produces no more words than its buffer has room for. -/
theorem LoopTrace.produced_le {budget n k p : Nat} {wait h : Bool} {o : ByteOrder} {tr : List Event}
    (hl : LoopTrace budget wait o n k tr p h) : p ≤ n / 4 := by
  induction hl with
  | full k hk => exact Nat.le_of_eq hk
  | stopError k _ _ hk | stopEmpty k _ hk => exact Nat.le_of_lt hk
  | produce => assumption

end Sys2Proof.Safety
end

section
/-! SUPPORT. The words of a READ in the buffer (spec/20_memory.md R64, R73). -/

namespace Sys2Proof.Safety

open Sys2Proof.Machine

/-- The words of the passes from pass `k` on, each written where its pass stores it (spec/41_read.md R133). -/
def storeWords (o : ByteOrder) (m : Memory) (k : Nat) (ws : List Word) : Memory :=
  match ws with
  | [] => m
  | w :: t => storeWords o (writeWord o m (4 * k) w) (k + 1) t

theorem readByte_storeWords_outside (o : ByteOrder) (m : Memory) (k a : Nat) (ws : List Word)
    (h : a < 4 * k ∨ 4 * (k + ws.length) ≤ a) : readByte (storeWords o m k ws) a = readByte m a := by
  induction ws generalizing m k with
  | nil => rfl
  | cons w t ih =>
    rw [List.length_cons] at h
    exact (ih _ _ (by omega)).trans (readByte_writeWord_outside _ _ _ _ _ (by omega))

/-- The bytes of the `j`-th word (spec/20_memory.md R64). -/
theorem readByte_storeWords (o : ByteOrder) (m : Memory) (k i j : Nat) (ws : List Word) (w : Word) (hi : i < 4)
    (hw : ws[j]? = some w) : readByte (storeWords o m k ws) (4 * (k + j) + i) = some (byteAt o w i) := by
  induction ws generalizing m k j with
  | nil => simp at hw
  | cons w' t ih =>
    cases j with
    | zero =>
      obtain rfl : w' = w := by simpa using hw
      have houtside := readByte_storeWords_outside o (writeWord o m (4 * k) w') (k + 1) (4 * k + i) t (by omega)
      exact houtside.trans (readByte_writeWord_inside o m (4 * k) i w' hi)
    | succ j =>
      have := ih (writeWord o m (4 * k) w') (k + 1) j (by simpa using hw)
      rwa [show k + 1 + j = k + (j + 1) by omega] at this

end Sys2Proof.Safety
end

section
/-! SUPPORT. The steps of a READ along a trace of the grammar that its environment answers: one step for each event, the
state it comes to, and the pseudocode of the same part beside it (spec/41_read.md R120, R138, R139). -/

namespace Sys2Proof.Safety

open Sys2Proof.Machine

/-- `k` working steps from `s` to `t` that the pseudocode `code` makes too; the pseudocode leaves `st` alone, so it is
run with `st` idle (spec/41_read.md R138). -/
structure Follows (k : Nat) (code : State → Host.Outcome State Fault Refusal) (s t : State) : Prop where
  busy : Busy k s t
  code : code (goto .idle s) = .next (goto .idle t)

theorem andThen_of_next {α β : Type} {o : Host.Outcome α Fault Refusal} {k : α → Host.Outcome β Fault Refusal} {a : α}
    (h : o = .next a) : andThen o k = k a := by
  rw [h, andThen_next]

/-- A step of READ in a working state, as a run of one step. -/
theorem busy_read {s t : State} (hf : family s.st = some .read) (h : exec (.read s.buf.len s.x.wait) s = .next t)
    (ht : t.st ≠ .idle) : Busy 1 s t :=
  busy_one ((step_eq_exec_read hf).trans h) ht

theorem nextOf_ne_idle (v : Word) : nextOf v ≠ .idle :=
  nextOf_elim (P := (· ≠ .idle)) v (by decide) (by decide) (by decide)

/-! ### The status of a pass -/

/-- The state after status reads `evs` of which `v` is the last, with `tmo` left of the budget (spec/41_read.md R126,
R128). -/
def afterStatus (v : Word) (tmo : Nat) (evs : List Event) (s : State) : State :=
  goto (nextOf v)
    { s with x := { s.x with sr := v, tmo := tmo }, env := envAfter s.env evs, trace := s.trace ++ evs }

/-- A read of zero that polls on comes before the reads of the poll. -/
theorem afterStatus_cons {s : State} {v : Word} {tmo tmo' : Nat} {evs : List Event} (h : (envRead s.env .sr).1 = 0) :
    afterStatus v tmo evs (goto .rPoll (seeStatus tmo' s)) = afterStatus v tmo (srRead 0 :: evs) s := by
  rw [← h]
  simp [afterStatus, seeStatus, goto, afterRead, emit, srRead, WinReg.offset, offSr, envNext, regOf]

section Pseudocode
variable {s : State} (hp : s.cfg.Placed)
include hp

theorem pollPhase_again (b : Nat) (hv : (envRead s.env .sr).1 = 0 ∧ s.x.tmo - 1 ≠ 0) :
    pollPhase (b + 1) (goto .idle s) = pollPhase b (goto .idle (seeStatus (s.x.tmo - 1) s)) := by
  refine (andThen_of_next (memRead_sr (goto .idle s) hp)).trans (if_neg ?_)
  exact not_or.2 ⟨not_not.2 hv.1, hv.2⟩

theorem pollPhase_last (b : Nat) (hv : ¬ ((envRead s.env .sr).1 = 0 ∧ s.x.tmo - 1 ≠ 0)) :
    pollPhase (b + 1) (goto .idle s) = .next (goto .idle (seeStatus (s.x.tmo - 1) s)) := by
  refine (andThen_of_next (memRead_sr (goto .idle s) hp)).trans (if_pos ?_)
  exact (not_and_or.1 hv).imp_right not_not.1

theorem passStatus_poll (hv : (envRead s.env .sr).1 = 0 ∧ s.x.wait = true) :
    passStatus (goto .idle s) = pollPhase s.cfg.tPoll (goto .idle (seeStatus s.cfg.tPoll s)) :=
  (andThen_of_next (memRead_sr (goto .idle s) hp)).trans (if_pos hv)

theorem passStatus_first (hv : ¬ ((envRead s.env .sr).1 = 0 ∧ s.x.wait = true)) :
    passStatus (goto .idle s) = .next (goto .idle (seeStatus s.x.tmo s)) :=
  (andThen_of_next (memRead_sr (goto .idle s) hp)).trans (if_neg hv)

end Pseudocode

/-- The poll phase (spec/41_read.md R128). -/
theorem follows_pollPhase {s : State} {v : Word} {j b : Nat} (hs : s.st = .rPoll) (hp : s.cfg.Placed)
    (hj : j < s.x.tmo) (hv : v = 0 → j + 1 = s.x.tmo) (hb : j < b) (ha : Answers s.env (reReads j v)) :
    Follows (j + 1) (pollPhase b) s (afterStatus v (s.x.tmo - (j + 1)) (reReads j v) s) := by
  obtain ⟨b, rfl⟩ : ∃ b', b = b' + 1 := ⟨b - 1, by omega⟩
  have hf : family s.st = some .read := by rw [hs]; rfl
  induction j generalizing s b with
  | zero =>
    obtain rfl : (envRead s.env .sr).1 = v := ha.1
    have hlast : ¬ ((envRead s.env .sr).1 = 0 ∧ s.x.tmo - 1 ≠ 0) := fun h => by have := hv h.1; omega
    exact ⟨busy_read hf (exec_read_rPoll_next hs hp hlast) (nextOf_ne_idle _), pollPhase_last hp b hlast⟩
  | succ j ih =>
    obtain ⟨hread, ha⟩ : (envRead s.env .sr).1 = 0 ∧ Answers (envRead s.env .sr).2 (reReads j v) := ha
    have hleft : (envRead s.env .sr).1 = 0 ∧ s.x.tmo - 1 ≠ 0 := ⟨hread, by omega⟩
    obtain ⟨b, rfl⟩ : ∃ b', b = b' + 1 := ⟨b - 1, by omega⟩
    have hrest := @ih (goto .rPoll (seeStatus (s.x.tmo - 1) s)) rfl hp (Nat.lt_sub_of_add_lt hj)
      (fun h => Nat.eq_sub_of_add_eq (hv h)) ha b (by omega) rfl
    rw [afterStatus_cons hread] at hrest
    have hfirst := busy_read hf (exec_read_rPoll_again hs hp hleft) nofun
    rw [show s.x.tmo - (j + 1 + 1) = s.x.tmo - 1 - (j + 1) by omega, Nat.add_comm (j + 1)]
    exact ⟨hfirst.trans hrest.busy, (pollPhase_again hp _ hleft).trans hrest.code⟩

/-- The status of a pass, with or without a poll phase (spec/41_read.md R126). -/
theorem follows_passStatus {s : State} {v : Word} {evs : List Event} (hs : s.st = .rRdsr) (hok : s.cfg.Ok)
    (hst : StatusTrace s.cfg.tPoll s.x.wait v evs) (ha : Answers s.env evs) :
    ∃ tmo, Follows evs.length passStatus s (afterStatus v tmo evs s) := by
  obtain ⟨hp, hbudget⟩ := hok
  have hf : family s.st = some .read := by rw [hs]; rfl
  rcases (statusTrace_iff hbudget).1 hst with ⟨hfirst, rfl⟩ | ⟨hw, j, hj, hv, rfl⟩
  · obtain rfl : (envRead s.env .sr).1 = v := ha.1
    exact ⟨s.x.tmo, busy_read hf (exec_read_rRdsr_next hs hp hfirst) (nextOf_ne_idle _), passStatus_first hp hfirst⟩
  · obtain ⟨hread, ha⟩ : (envRead s.env .sr).1 = 0 ∧ Answers (envRead s.env .sr).2 (reReads j v) := ha
    have hrest := follows_pollPhase (s := goto .rPoll (seeStatus s.cfg.tPoll s)) rfl hp hj hv hj ha
    rw [afterStatus_cons hread] at hrest
    have hfirst := busy_read hf (exec_read_rRdsr_poll hs hp ⟨hread, hw⟩) nofun
    refine ⟨_, ?_, (passStatus_poll hp ⟨hread, hw⟩).trans hrest.code⟩
    rw [List.length_cons, length_reReads, Nat.add_comm]
    exact hfirst.trans hrest.busy

/-! ### The loop -/

/-- The loop of a READ of `n` bytes stands before pass `k`, or has filled its buffer (spec/41_read.md R125, R137). -/
structure AtPass (budget : Nat) (wait : Bool) (o : ByteOrder) (n k : Nat) (s : State) : Prop where
  ok : s.cfg.Ok
  budget : s.cfg.tPoll = budget
  order : s.cfg.byteOrder = o
  wait : s.x.wait = wait
  len : s.buf.len = n
  short : n < 2 ^ 29
  cnt : s.x.cnt = BitVec.ofNat 29 (4 * k)
  rem : s.x.rem = BitVec.ofNat 29 (n - 4 * k)
  st : s.st = afterStore s.x.rem
  hwerr : s.hwerr = false

/-- The state after the loop (spec/41_read.md R131, R133, R134): the registers `x`, the error flag `h`, and what the
events of the loop from pass `k` on have done. -/
def afterLoop (k : Nat) (tr : List Event) (x : Regs) (h : Bool) (s : State) : State :=
  { s with
    st := .rRestore
    x := x
    hwerr := h
    buf := { s.buf with bytes := storeWords s.cfg.byteOrder s.buf.bytes k (readsOf .dr tr) }
    env := envAfter s.env tr
    trace := s.trace ++ tr }

/-- A length of at most 29 bits counts down by 4 as a natural number does. -/
theorem ofNat_sub_four {r : Nat} (h : 4 ≤ r) : BitVec.ofNat 29 r - 4 = BitVec.ofNat 29 (r - 4) := by
  obtain ⟨q, rfl⟩ : ∃ q, r = q + 4 := ⟨r - 4, by omega⟩
  rw [BitVec.ofNat_add]
  simp

theorem afterStore_ofNat {r : Nat} (h : r < 2 ^ 29) :
    afterStore (BitVec.ofNat 29 r) = if 4 ≤ r then .rRdsr else .rRestore := by
  have hle : (4 : Len) ≤ BitVec.ofNat 29 r ↔ 4 ≤ r := by
    rw [BitVec.le_def, BitVec.toNat_ofNat, Nat.mod_eq_of_lt h]
    rfl
  simp only [afterStore, hle]

section AtPass
variable {budget n k : Nat} {wait : Bool} {o : ByteOrder} {s : State} (h : AtPass budget wait o n k s)
include h

theorem AtPass.st_eq : s.st = if k < n / 4 then .rRdsr else .rRestore := by
  have hshort := h.short
  have hroom : 4 ≤ n - 4 * k ↔ k < n / 4 := by omega
  rw [h.st, h.rem, afterStore_ofNat (by omega)]
  simp only [hroom]

theorem AtPass.cnt_toNat (hk : k < n / 4) : s.x.cnt.toNat = 4 * k := by
  have hshort := h.short
  rw [h.cnt, BitVec.toNat_ofNat, Nat.mod_eq_of_lt (by omega)]

/-- Less than a word's room: there is no pass left (spec/41_read.md R125). -/
theorem AtPass.no_pass_left (hr : s.x.rem < 4) : n / 4 ≤ k := by
  have hrestore : s.st = .rRestore := by rw [h.st, afterStore, if_neg (BitVec.not_le.2 hr)]
  by_contra hk
  rw [h.st_eq, if_pos (Nat.lt_of_not_le hk)] at hrestore
  cases hrestore

/-- A pass that stores a word comes to the next one (spec/41_read.md R133). -/
theorem AtPass.produce (hk : k < n / 4) (v : Word) (tmo : Nat) (evs : List Event) :
    AtPass budget wait o n (k + 1) (storeWord (takeWord (afterStatus v tmo evs s))) := by
  refine ⟨h.ok, h.budget, h.order, h.wait, h.len, h.short, ?_, ?_, rfl, h.hwerr⟩
  · show s.x.cnt + 4 = _
    rw [h.cnt, Nat.mul_succ, BitVec.ofNat_add]
    rfl
  · show s.x.rem - 4 = _
    rw [h.rem, ofNat_sub_four (by omega), Nat.mul_succ, Nat.sub_sub]

/-- A full buffer: the loop is over, and nothing more happens in it (spec/41_read.md R125). -/
theorem AtPass.full (hk : k = n / 4) : afterLoop k [] s.x false s = s := by
  have hst : s.st = .rRestore := by rw [h.st_eq, if_neg (by omega)]
  have hhwerr := h.hwerr
  cases s
  simp_all [afterLoop, storeWords]

end AtPass

theorem bufWrite_of_room {i : Nat} {v : Word} {s : State} (h : i + 4 ≤ s.buf.len) : bufWrite i v s =
    .next (emit (storeEvent s.cfg.byteOrder i v)
      { s with buf := { s.buf with bytes := writeWord s.cfg.byteOrder s.buf.bytes i v } }) :=
  if_pos h

section PassPseudocode
variable {s t : State} (hs : passStatus s = .next (goto .idle t)) (b : Nat)
include hs

theorem readLoop_error (he : t.x.sr &&& 0x00000060 ≠ 0) :
    readLoop (b + 1) s = .next (raiseOutcome (.hardwareErrorObserved t.x.sr) (goto .idle t)) := by
  rw [readLoop, hs, andThen_next]
  exact if_pos he

theorem readLoop_empty (he : t.x.sr = 0) : readLoop (b + 1) s = .next (goto .idle t) := by
  have herr : ¬ (t.x.sr &&& 0x00000060 ≠ 0) := by simp [he]
  rw [readLoop, hs, andThen_next]
  exact (if_neg herr).trans (if_pos he)

theorem readLoop_data (herr : t.x.sr &&& 0x00000060 = 0) (hz : t.x.sr ≠ 0) (hp : t.cfg.Placed)
    (hroom : t.x.cnt.toNat + 4 ≤ t.buf.len) : readLoop (b + 1) s =
      if t.x.rem - 4 < 4 then .next (goto .idle (storeWord (takeWord t)))
      else readLoop b (goto .idle (storeWord (takeWord t))) := by
  have hread : memRead (t.cfg.base + 0x08) (goto .idle t) =
      .next ((envRead t.env .dr).1, afterRead .dr (goto .idle t)) := memRead_dr (goto .idle t) hp
  rw [readLoop, hs, andThen_next]
  have hstore := bufWrite_of_room (v := (envRead t.env .dr).1)
    (s := { afterRead .dr (goto .idle t) with x.word := (envRead t.env .dr).1 }) hroom
  refine (if_neg (not_not.2 herr)).trans ((if_neg hz).trans ?_)
  exact (andThen_of_next hread).trans (andThen_of_next hstore)

end PassPseudocode

/-- What the loop of a READ leaves in the registers that its end uses: `cr_saved` and `wait` as they were, and the count
of the `p` words produced (spec/41_read.md R134, R136, R137). -/
structure LoopRegs (p : Nat) (s : State) (x : Regs) : Prop where
  saved : x.crSaved = s.x.crSaved
  wait : x.wait = s.x.wait
  cnt : x.cnt = BitVec.ofNat 29 (4 * p)

section Pass
variable {budget n k : Nat} {wait : Bool} {o : ByteOrder} {s : State} (hs : AtPass budget wait o n k s) (hk : k < n / 4)
  {v : Word} {status : List Event} (hst : StatusTrace budget wait v status)
include hs hk hst

theorem AtPass.follows_status (ha : Answers s.env status) :
    ∃ tmo, Follows status.length passStatus s (afterStatus v tmo status s) := by
  have hrdsr : s.st = .rRdsr := by rw [hs.st_eq, if_pos hk]
  exact follows_passStatus hrdsr hs.ok (hs.budget ▸ hs.wait ▸ hst) ha

/-- A pass that sees an error bit ends the loop with the error signalled (spec/41_read.md R131). -/
theorem follows_pass_error (b : Nat) (hv : v &&& 0x00000060 ≠ 0) (ha : Answers s.env status) :
    ∃ x, LoopRegs k s x ∧
      Follows (status.length + 1) (readLoop (b + 1)) s (afterLoop k (status ++ [.hwError v]) x true s) := by
  obtain ⟨tmo, hbusy, hcode⟩ := hs.follows_status hk hst ha
  have hhwerr : (afterStatus v tmo status s).st = .rHwerr := nextOf_error hv
  have hsignal := busy_read (by rw [hhwerr]; rfl) (exec_read_rHwerr hhwerr) nofun
  have hend : goto .rRestore (raiseOutcome (.hardwareErrorObserved v) (afterStatus v tmo status s)) =
      afterLoop k (status ++ [.hwError v]) (afterStatus v tmo status s).x true s := by
    simp [afterLoop, afterStatus, raiseOutcome, goto, emit, hst.reads_dr, storeWords]
  refine ⟨(afterStatus v tmo status s).x, ⟨rfl, rfl, hs.cnt⟩, ?_⟩
  rw [← hend]
  exact ⟨hbusy.trans hsignal, readLoop_error hcode b hv⟩

/-- A pass that evaluates zero ends the loop (spec/41_read.md R129). -/
theorem follows_pass_empty (b : Nat) (hv : v = 0) (ha : Answers s.env status) :
    ∃ x, LoopRegs k s x ∧ Follows status.length (readLoop (b + 1)) s (afterLoop k status x false s) := by
  subst hv
  obtain ⟨tmo, hbusy, hcode⟩ := hs.follows_status hk hst ha
  have hend : afterStatus 0 tmo status s = afterLoop k status (afterStatus 0 tmo status s).x false s := by
    simp [afterLoop, afterStatus, goto, nextOf_zero, hst.reads_dr, storeWords, hs.hwerr]
  refine ⟨(afterStatus 0 tmo status s).x, ⟨rfl, rfl, hs.cnt⟩, ?_⟩
  rw [← hend]
  exact ⟨hbusy, readLoop_empty hcode b rfl⟩

/-- A pass that stores a word takes two more steps, and the loop goes on from the next pass (spec/41_read.md R132,
R133). -/
theorem follows_pass_data {w : Word} (hv : v ≠ 0) (he : v &&& 0x00000060 = 0) (ha : Answers s.env status)
    (hw : (envRead (envAfter s.env status) .dr).1 = w) :
    ∃ u, AtPass budget wait o n (k + 1) u ∧ u.env = (envRead (envAfter s.env status) .dr).2 ∧
      (∀ p x, LoopRegs p u x → LoopRegs p s x) ∧
      (∀ rest x h, afterLoop (k + 1) rest x h u =
        afterLoop k (status ++ .regRead 0x08 w :: storeEvent o (4 * k) w :: rest) x h s) ∧
      Busy (status.length + 2) s u ∧
      readLoop (n / 4 - k) (goto .idle s) = readLoop (n / 4 - (k + 1)) (goto .idle u) := by
  obtain ⟨tmo, hbusy, hcode⟩ := hs.follows_status hk hst ha
  have hcnt : s.x.cnt.toNat = 4 * k := hs.cnt_toNat hk
  have hroom : s.x.cnt.toNat + 4 ≤ s.buf.len := by rw [hcnt, hs.len]; omega
  have hrddr : (afterStatus v tmo status s).st = .rRddr := nextOf_data hv he
  have htake := busy_read (by rw [hrddr]; rfl) (exec_read_rRddr hrddr hs.ok.1) nofun
  have hstore := busy_read (s := takeWord (afterStatus v tmo status s)) rfl (exec_read_rStore rfl hroom)
    (afterStore_elim (P := (· ≠ .idle)) _ nofun nofun)
  have hnext := hs.produce hk v tmo status
  refine ⟨_, hnext, rfl, fun p x hx => ⟨hx.saved, hx.wait, hx.cnt⟩, fun rest x h => ?_,
    (hbusy.trans htake).trans hstore, ?_⟩
  · simp [afterLoop, afterStatus, storeWord, takeWord, goto, afterRead, emit, hst.reads_dr, storeWords, hw, hcnt,
      hs.order, WinReg.offset, offDr]
  · rw [show n / 4 - k = n / 4 - (k + 1) + 1 by omega, readLoop_data hcode _ he hv hs.ok.1 hroom]
    split
    · rename_i hlast
      rw [Nat.sub_eq_zero_of_le (hnext.no_pass_left hlast)]
      rfl
    · rfl

end Pass

/-- The loop from pass `k` on: one step for each event of its trace (spec/41_read.md R120, R125 to R133). -/
theorem follows_readLoop {budget n k p : Nat} {wait h : Bool} {o : ByteOrder} {tr : List Event}
    (hl : LoopTrace budget wait o n k tr p h) {s : State} (hs : AtPass budget wait o n k s) (ha : Answers s.env tr) :
    ∃ x, LoopRegs p s x ∧ Follows tr.length (readLoop (n / 4 - k)) s (afterLoop k tr x h s) := by
  induction hl generalizing s with
  | full k hk =>
    refine ⟨s.x, ⟨rfl, rfl, hs.cnt⟩, ?_⟩
    rw [hs.full hk, Nat.sub_eq_zero_of_le (Nat.le_of_eq hk.symm)]
    exact ⟨busy_zero s, rfl⟩
  | stopError k v status hk hst hv =>
    obtain ⟨hstatus, -⟩ := (answers_append _ _ _).1 ha
    rw [List.length_append, show n / 4 - k = n / 4 - (k + 1) + 1 by omega]
    exact follows_pass_error hs hk hst _ hv hstatus
  | stopEmpty k status hk hst =>
    rw [show n / 4 - k = n / 4 - (k + 1) + 1 by omega]
    exact follows_pass_empty hs hk hst _ rfl ha
  | produce k v w status rest p h hk hst hv he hr ih =>
    obtain ⟨hstatus, hw, -, hrest⟩ := (answers_append _ _ _).1 ha
    obtain ⟨u, hnext, henv, hregs, hend, hpass, hloop⟩ := follows_pass_data hs hk hst hv he hstatus hw
    obtain ⟨x, hx, hbusy, hcode⟩ := ih hnext (henv ▸ hrest)
    refine ⟨x, hregs p x hx, ?_⟩
    rw [← hend, show (status ++ .regRead 0x08 w :: storeEvent o (4 * k) w :: rest).length =
      status.length + 2 + rest.length by simp only [List.length_append, List.length_cons]; omega]
    exact ⟨hpass.trans hbusy, hloop.trans hcode⟩

end Sys2Proof.Safety
end

section
/-! SUPPORT. A whole READ call along a trace of the grammar: its steps, its pseudocode and the state it ends in
(spec/41_read.md R120, R121, R136, R139). -/

namespace Sys2Proof.Safety

open Sys2Proof.Machine

/-! ### Accept, the way into the loop, the way out -/

/-- The state after the Accept of READ (spec/41_read.md R121). -/
def readAccepted (n : Nat) (wait : Bool) (s : State) : State :=
  goto (readEntry n) (latchOperands n wait { accept (.read n wait) s with buf := hostBuffer n (presentedBytes s) })

/-- The state before the loop, from the accepted one: the clock on, CR saved and its enable bit set (spec/41_read.md
R122 to R124). -/
def enterLoop (s : State) : State :=
  goto .rRdsr (afterWrite .cr (withEnable (crBefore s.env)) { afterRead .cr (clkEnable s) with
    x := { s.x with crSaved := crBefore s.env } })

/-- The state before the response, from the one after the loop: CR restored, the clock off (spec/41_read.md R134,
R135). -/
def leaveLoop (s : State) : State := goto .rRet (clkDisable (afterWrite .cr s.x.crSaved s))

theorem busy_enterLoop {s : State} (hs : s.st = .rClken) (hp : s.cfg.Placed) : Busy 3 s (enterLoop s) := by
  have henable : Busy 1 s (goto .rRdcr (clkEnable s)) := busy_read (by rw [hs]; rfl) (exec_read_rClken hs) nofun
  have hsave := busy_read (s := goto .rRdcr (clkEnable s)) rfl (exec_read_rRdcr rfl hp) nofun
  exact (henable.trans hsave).trans (busy_read rfl (exec_read_rWrcr rfl hp) nofun)

theorem busy_leaveLoop {s : State} (hs : s.st = .rRestore) (hp : s.cfg.Placed) : Busy 2 s (leaveLoop s) := by
  have hrestore := busy_read (by rw [hs]; rfl) (exec_read_rRestore hs hp) nofun
  exact hrestore.trans (busy_read rfl (exec_read_rClkdis rfl) nofun)

section Accept
variable {s : State} {n : Nat} {wait : Bool} (hp : Presents s (.read n wait)) (hprep : s.prepared = true)
include hp

theorem length_of_presents : n < 2 ^ 29 := by
  obtain ⟨-, p, rest, -, hdecode⟩ := hp
  exact decode_read_lt hdecode

include hprep

theorem busy_accept : Busy 1 s (readAccepted n wait s) :=
  busy_one ((step_of_presents hp).trans (exec_read_idle_prepared hp.1 hprep))
    (readEntry_elim (P := (· ≠ .idle)) n nofun nofun)

/-- The pseudocode's Accept is the step's, but for `st` (spec/41_read.md R120, R121). -/
theorem readCall_eq : readCall n wait s =
    andThen (if 4 ≤ n then readHardware n (goto .idle (readAccepted n wait s))
      else .next (goto .idle (readAccepted n wait s))) fun t => .next (readReturn t) := by
  have hs : s.st = .idle := hp.1
  have haccept : { accept (.read n wait) s with
      x := { (accept (.read n wait) s).x with wait := wait, rem := BitVec.ofNat 29 n, cnt := 0 },
      buf := hostBuffer n (presentedBytes s) } = goto .idle (readAccepted n wait s) := by
    simp [readAccepted, accept, emit, latchOperands, goto, hs]
  rw [readCall, if_pos hprep]
  simp only [haccept]

end Accept

/-- The hardware part of the pseudocode, around its loop (spec/41_read.md R120). -/
theorem readHardware_eq {s t : State} {n : Nat} (hs : s.cfg.Placed) (ht : t.cfg.Placed)
    (hloop : readLoop (n / 4) (goto .idle (enterLoop s)) = .next (goto .idle t)) :
    readHardware n (goto .idle s) = .next (goto .idle (leaveLoop t)) := by
  have hread := memRead_cr (clkEnable (goto .idle s)) hs
  have hwrite := memWrite_cr (withEnable (crBefore s.env))
    { afterRead .cr (clkEnable (goto .idle s)) with x := { s.x with crSaved := crBefore s.env } } hs
  have hrestore := memWrite_cr t.x.crSaved (goto .idle t) ht
  exact (andThen_of_next hread).trans
    ((andThen_of_next hwrite).trans ((andThen_of_next hloop).trans (andThen_of_next hrestore)))

/-! ### The call -/

/-- The response after `p` words (spec/41_read.md R136, R139). -/
theorem readResponse_eq {s : State} {p : Nat} (hcnt : s.x.cnt = BitVec.ofNat 29 (4 * p)) (hp : 4 * p < 2 ^ 29) :
    readResponse s = ⟨readStatus p s.x.wait, BitVec.ofNat 29 (4 * p), s.hwerr⟩ := by
  have hzero : BitVec.ofNat 29 (4 * p) = 0 ↔ p = 0 := by
    rw [← BitVec.toNat_inj, BitVec.toNat_ofNat, Nat.mod_eq_of_lt hp]
    simp
  simp only [readResponse, readStatus, hcnt, hzero]

theorem readReturn_goto_idle (s : State) : readReturn (goto .idle s) = ret (readResponse s) s := readReturn_eq _

/-- The READ of `n` bytes presented to `s` ends in `t` with the trace `tr` and the response `r`; its pseudocode ends in
the same state. -/
structure ReadEnds (n : Nat) (wait : Bool) (tr : List Event) (r : Response) (s t : State) : Prop where
  call : CallEnds tr.length s t
  code : readCall n wait s = .next t
  trace : t.trace = s.trace ++ tr
  env : t.env = envAfter s.env tr
  response : t.response = some r
  len : t.buf.len = n
  bytes : t.buf.bytes =
    storeWords s.cfg.byteOrder (hostBuffer n (presentedBytes s)).bytes 0 (readsOf .dr tr)

/-- The state before the response of a READ of at least 4 bytes with these events in its loop. -/
def beforeReturn (n : Nat) (wait : Bool) (loop : List Event) (x : Regs) (h : Bool) (s : State) : State :=
  leaveLoop (afterLoop 0 loop x h (enterLoop (readAccepted n wait s)))

section BeforeReturn
variable {n : Nat} {wait h : Bool} {loop : List Event} {x : Regs} {s : State} (hcr : x.crSaved = crBefore s.env)
include hcr

theorem ret_beforeReturn_trace (r : Response) : (ret r (beforeReturn n wait loop x h s)).trace =
    s.trace ++ (readOpening n wait (crBefore s.env) ++ loop ++ readClosing (crBefore s.env) r) := by
  simp [beforeReturn, leaveLoop, afterLoop, enterLoop, readAccepted, readOpening, readClosing, hcr, WinReg.offset,
    offCr, withEnable, maskEn, crBefore]

theorem ret_beforeReturn_env (r : Response) : (ret r (beforeReturn n wait loop x h s)).env =
    envAfter s.env (readOpening n wait (crBefore s.env) ++ loop ++ readClosing (crBefore s.env) r) := by
  simp only [beforeReturn, leaveLoop, afterLoop, ret_env, goto_env, clkDisable_env, afterWrite_env, hcr,
    envAfter_append]
  rfl

end BeforeReturn

section Call
variable {s : State} {n : Nat} {wait : Bool} (hp : Presents s (.read n wait)) (hprep : s.prepared = true)
include hp hprep

/-- Fewer than 4 bytes: `Accept ; Return` (spec/41_read.md R121, R139). -/
theorem readEnds_short (hn : n < 4) :
    ReadEnds n wait [.accept (.read n wait), .ret ⟨readStatus 0 wait, 0, false⟩] ⟨readStatus 0 wait, 0, false⟩ s
      (ret ⟨readStatus 0 wait, 0, false⟩ (readAccepted n wait s)) := by
  have hret : (readAccepted n wait s).st = .rRet := if_neg (Nat.not_le.2 hn)
  have hresponse : readResponse (readAccepted n wait s) = ⟨readStatus 0 wait, 0, false⟩ :=
    readResponse_eq (p := 0) rfl (by decide)
  have hstep := (step_eq_exec_read (by rw [hret]; rfl)).trans (exec_read_rRet hret)
  rw [hresponse] at hstep
  refine ⟨(busy_accept hp hprep).callEnds hstep rfl, ?_, ?_, rfl, rfl, rfl, rfl⟩
  · rw [readCall_eq hp hprep, if_neg (Nat.not_le.2 hn), andThen_next, readReturn_goto_idle, hresponse]
  · simp [readAccepted]

/-- At least 4 bytes: the events of the loop that the environment answers, between the opening and the closing
(spec/41_read.md R139). -/
theorem readEnds_long (hok : s.cfg.Ok) (hn : 4 ≤ n) {c : Word} {loop : List Event} {p : Nat} {h : Bool}
    (hl : LoopTrace s.cfg.tPoll wait s.cfg.byteOrder n 0 loop p h)
    (ha : Answers s.env
      (readOpening n wait c ++ loop ++ readClosing c ⟨readStatus p wait, BitVec.ofNat 29 (4 * p), h⟩)) :
    ∃ t, ReadEnds n wait
      (readOpening n wait c ++ loop ++ readClosing c ⟨readStatus p wait, BitVec.ofNat 29 (4 * p), h⟩)
      ⟨readStatus p wait, BitVec.ofNat 29 (4 * p), h⟩ s t := by
  obtain ⟨rfl, hloop⟩ := answers_long.1 ha
  have hlen : n < 2 ^ 29 := length_of_presents hp
  have hclken : (readAccepted n wait s).st = .rClken := if_pos hn
  have hpass : AtPass s.cfg.tPoll wait s.cfg.byteOrder n 0 (enterLoop (readAccepted n wait s)) := by
    refine ⟨hok, rfl, rfl, rfl, rfl, hlen, rfl, rfl, ?_, rfl⟩
    exact ((afterStore_ofNat hlen).trans (if_pos hn)).symm
  obtain ⟨x, hx, hbusy, hcode⟩ := follows_readLoop hl hpass hloop
  have hcr : x.crSaved = crBefore s.env := hx.saved
  have hlatched : (beforeReturn n wait loop x h s).x.wait = wait := hx.wait
  have hresponse : readResponse (beforeReturn n wait loop x h s) =
      ⟨readStatus p wait, BitVec.ofNat 29 (4 * p), h⟩ := by
    have hroom := hl.produced_le
    refine (readResponse_eq hx.cnt (by omega)).trans ?_
    rw [hlatched]
    rfl
  have hreturn : step (beforeReturn n wait loop x h s) = .next (ret _ (beforeReturn n wait loop x h s)) :=
    (step_eq_exec_read rfl).trans (exec_read_rRet rfl)
  have hbefore : Busy (1 + 3 + loop.length + 2) s (beforeReturn n wait loop x h s) :=
    (((busy_accept hp hprep).trans (busy_enterLoop hclken hok.1)).trans hbusy).trans (busy_leaveLoop rfl hok.1)
  rw [hresponse] at hreturn
  have hhardware : readHardware n (goto .idle (readAccepted n wait s)) =
      .next (goto .idle (beforeReturn n wait loop x h s)) :=
    readHardware_eq (s := readAccepted n wait s) hok.1 hok.1 hcode
  refine ⟨ret ⟨readStatus p wait, BitVec.ofNat 29 (4 * p), h⟩ (beforeReturn n wait loop x h s),
    ?call, ?code, ?trace, ?env, rfl, rfl, ?bytes⟩
  case call =>
    convert hbefore.callEnds hreturn rfl using 1
    simp only [readOpening, readClosing, List.length_append, List.length_cons, List.length_nil]
  case code => rw [readCall_eq hp hprep, if_pos hn, hhardware, andThen_next, readReturn_goto_idle, hresponse]
  case trace => exact ret_beforeReturn_trace hcr _
  case env => exact ret_beforeReturn_env hcr _
  case bytes =>
    rw [readsOf_long (by decide)]
    rfl

/-- Every trace of the grammar that the environment answers is the trace of the call (spec/41_read.md R139). -/
theorem readEnds_of_trace (hok : s.cfg.Ok) {tr : List Event} (hr : ReadTrace s.cfg.tPoll s.cfg.byteOrder n wait tr)
    (ha : Answers s.env tr) : ∃ r t, ReadEnds n wait tr r s t := by
  cases hr with
  | short hn => exact ⟨_, _, readEnds_short hp hprep hn⟩
  | long c loop p h hn hl => exact ⟨_, readEnds_long hp hprep hok hn hl ha⟩

/-- Whatever the environment answers, the call ends, with a trace of the grammar (spec/41_read.md R139, R140). -/
theorem exists_readEnds (hok : s.cfg.Ok) :
    ∃ tr r t, ReadTrace s.cfg.tPoll s.cfg.byteOrder n wait tr ∧ Answers s.env tr ∧ ReadEnds n wait tr r s t := by
  obtain ⟨tr, htr, ha⟩ := exists_readTrace hok.2 s.cfg.byteOrder n wait s.env
  obtain ⟨r, t, ht⟩ := readEnds_of_trace hp hprep hok htr ha
  exact ⟨tr, r, t, htr, ha, ht⟩

end Call

end Sys2Proof.Safety
end

section
/-! SUPPORT. READ with the reference peripheral, and READ by the scripts of the trusted environment (spec/10_state.md
R45, R47). -/

namespace Sys2Proof.Safety

open Sys2Proof.Machine

/-! ### The round trip of CR -/

/-- Along a trace of READ the reference peripheral's CR comes back to what it held: the last write puts back the word
that was read there (spec/41_read.md R134). -/
theorem readTrace_win_cr {e : Env} (hk : e.kind = .reference) {budget n : Nat} {o : ByteOrder} {wait : Bool}
    {tr : List Event} (hr : ReadTrace budget o n wait tr) (ha : Answers e tr) :
    (envAfter e tr).win.cr = e.win.cr := by
  cases hr with
  | short => rfl
  | long c loop p h hn hl =>
    obtain ⟨hc, -⟩ := answers_long.1 ha
    have hbefore : crBefore e = e.win.cr := envRead_cr_value { e with clkEnabled := true } hk
    have hkind : (envAfter (envAfter e (readOpening n wait c)) loop).kind = .reference := by simp [hk]
    rw [envAfter_append, envAfter_append]
    exact (envWrite_win_cr _ c hkind).trans (hc.symm.trans hbefore)

/-! ### The scripts -/

/-- A read uses up one answer of its register's script and none of the others (spec/10_state.md R47). -/
theorem answersFor_envRead {e : Env} (hk : e.kind = .drawn) (r r' : WinReg) :
    answersFor (envRead e r).2 r' = if r' = r then (answersFor e r').tail else answersFor e r' := by
  simp only [envRead, hk]
  cases r <;> cases r' <;> rfl

/-- A write uses up none. -/
theorem answersFor_envWrite {e : Env} (hk : e.kind = .drawn) (r r' : WinReg) (v : Word) :
    answersFor (envWrite e r v) r' = answersFor e r' := by
  simp only [envWrite, hk]
  cases r' <;> rfl

/-- Each event uses up of a script what it shows of its register. -/
theorem answersFor_envNext {e : Env} (hk : e.kind = .drawn) (ev : Event) (r : WinReg) :
    answersFor (envNext e ev) r = (answersFor e r).drop (readOf r ev).toList.length := by
  cases ev with
  | regRead off v =>
    refine (answersFor_envRead hk (regOf off) r).trans ?_
    by_cases hr : regOf off = r
    · simp [readOf, hr]
    · simp [readOf, hr, Ne.symm hr]
  | regWrite off v => exact answersFor_envWrite hk (regOf off) r v
  | _ => cases r <;> rfl

theorem answersFor_envAfter {e : Env} (hk : e.kind = .drawn) (tr : List Event) (r : WinReg) :
    answersFor (envAfter e tr) r = (answersFor e r).drop (readsOf r tr).length := by
  induction tr generalizing e with
  | nil => rfl
  | cons ev tr ih =>
    rw [envAfter_cons, ih ((envNext_kind e ev).trans hk), answersFor_envNext hk, List.drop_drop, readsOf_cons,
      List.length_append]

/-- What is left of a script that begins with the words a trace reads. -/
theorem answersFor_envAfter_of_append {e : Env} (hk : e.kind = .drawn) {tr : List Event} {r : WinReg} {rest : List Word}
    (hs : answersFor e r = readsOf r tr ++ rest) : answersFor (envAfter e tr) r = rest := by
  rw [answersFor_envAfter hk, hs, List.drop_left]

/-- A trace is answered by scripts that begin with the words it reads (spec/10_state.md R47). -/
theorem answers_of_scripts {e : Env} (hk : e.kind = .drawn) {tr : List Event}
    (hs : ∀ r, ∃ rest, answersFor e r = readsOf r tr ++ rest) : Answers e tr := by
  induction tr generalizing e with
  | nil => exact trivial
  | cons ev tr ih =>
    have hhead (r : WinReg) : ∃ rest, answersFor e r = (readOf r ev).toList ++ (readsOf r tr ++ rest) := by
      obtain ⟨rest, hrest⟩ := hs r
      exact ⟨rest, by rw [hrest, readsOf_cons, List.append_assoc]⟩
    have hanswered : Answered e ev := by
      cases ev with
      | regRead off v =>
        obtain ⟨rest, hrest⟩ := hhead (regOf off)
        rw [readOf, if_pos rfl] at hrest
        exact (envRead_drawn hk hrest).1
      | _ => trivial
    refine ⟨hanswered, ih ((envNext_kind e ev).trans hk) fun r => ?_⟩
    obtain ⟨rest, hrest⟩ := hhead r
    exact ⟨rest, by rw [answersFor_envNext hk, hrest, List.drop_left]⟩

end Sys2Proof.Safety
end

section
/-! SUPPORT. READ calls of the trusted environment that begin with ready status words, and the state from which a given
trace of the grammar is run (spec/41_read.md R139, R141). -/

namespace Sys2Proof.Safety

open Sys2Proof.Machine

/-! ### Ready passes -/

/-- The events of passes from pass `k` on, each with the status word 0x00000001 and one of the words `ws`
(spec/41_read.md R139). -/
def readyPasses (o : ByteOrder) (k : Nat) (ws : List Word) : List Event :=
  match ws with
  | [] => []
  | w :: t => srRead 1 :: .regRead 0x08 w :: storeEvent o (4 * k) w :: readyPasses o (k + 1) t

theorem length_readyPasses (o : ByteOrder) (k : Nat) (ws : List Word) :
    (readyPasses o k ws).length = 3 * ws.length := by
  induction ws generalizing k with
  | nil => rfl
  | cons w t ih => simp only [readyPasses, List.length_cons, ih]; omega

theorem readsOf_sr_readyPasses (o : ByteOrder) (k : Nat) (ws : List Word) :
    readsOf .sr (readyPasses o k ws) = List.replicate ws.length 1 := by
  induction ws generalizing k with
  | nil => rfl
  | cons w t ih =>
    rw [readyPasses, readsOf_cons, readsOf_cons, readsOf_cons, ih]
    rfl

theorem readsOf_dr_readyPasses (o : ByteOrder) (k : Nat) (ws : List Word) : readsOf .dr (readyPasses o k ws) = ws := by
  induction ws generalizing k with
  | nil => rfl
  | cons w t ih => simp [readyPasses, ih]

/-- Ready passes come before any loop that goes on from there (spec/41_read.md R139). -/
theorem loopTrace_readyPasses {budget n p : Nat} {wait h : Bool} {o : ByteOrder} {tail : List Event} (k : Nat)
    (ws : List Word) (hk : k + ws.length ≤ n / 4) (ht : LoopTrace budget wait o n (k + ws.length) tail p h) :
    LoopTrace budget wait o n k (readyPasses o k ws ++ tail) p h := by
  induction ws generalizing k with
  | nil => exact ht
  | cons w t ih =>
    rw [List.length_cons, Nat.add_comm t.length, ← Nat.add_assoc] at hk ht
    exact .produce k 1 w [srRead 1] _ p h (by omega) (.ready 1 (by decide)) (by decide) (by decide) (ih (k + 1) hk ht)

/-- `m` ready status words make `m` passes, whose data words are those of the script if there is one for them
(spec/10_state.md R47). -/
theorem exists_readyPasses {e : Env} (hk : e.kind = .drawn) (o : ByteOrder) (k m : Nat) (rest : List Word)
    (hsr : answersFor e .sr = List.replicate m 1 ++ rest) :
    ∃ ws, ws.length = m ∧ Answers e (readyPasses o k ws) ∧
      ∀ ws' rest', ws'.length = m → answersFor e .dr = ws' ++ rest' → ws' = ws := by
  induction m generalizing e k with
  | zero => exact ⟨[], rfl, trivial, fun ws' _ hlen _ => List.eq_nil_of_length_eq_zero hlen⟩
  | succ m ih =>
    rw [List.replicate_succ, List.cons_append] at hsr
    obtain ⟨hone, hsr'⟩ := envRead_drawn hk hsr
    have hk' : (envRead e .sr).2.kind = .drawn := (envRead_kind e .sr).trans hk
    have hdr : answersFor (envRead e .sr).2 .dr = answersFor e .dr := answersFor_envRead hk .sr .dr
    obtain ⟨ws, hlen, ha, hscript⟩ := ih ((envRead_kind _ .dr).trans hk') (k + 1)
      ((answersFor_envRead hk' .dr .sr).trans hsr')
    have hpass : Answers e (readyPasses o k ((envRead (envRead e .sr).2 .dr).1 :: ws)) := ⟨hone, rfl, trivial, ha⟩
    refine ⟨_, by rw [List.length_cons, hlen], hpass, ?_⟩
    intro ws' rest' hlen' hscripted
    obtain ⟨w, t, rfl⟩ := List.exists_cons_of_length_eq_add_one hlen'
    obtain ⟨hw, hdr'⟩ := envRead_drawn hk' (hdr.trans hscripted)
    rw [hw, hscript t rest' (Nat.succ.inj hlen') hdr']

section Ready
variable {s : State} {n m : Nat} {wait h : Bool} {tail : List Event} {rest : List Word}
  (hp : Presents s (.read n wait)) (hprep : s.prepared = true) (hok : s.cfg.Ok) (hk : s.env.kind = .drawn)
  (hn : 4 ≤ n) (hm : m ≤ n / 4) (hl : LoopTrace s.cfg.tPoll wait s.cfg.byteOrder n m tail m h)
  (hcr : readsOf .cr tail = []) (hdr : readsOf .dr tail = [])
  (hsr : s.env.srAnswers = List.replicate m 1 ++ (readsOf .sr tail ++ rest))
include hp hprep hok hk hn hm hl hcr hdr hsr

/-- A READ in the trusted environment with `m` ready status words and then the events `tail` in its loop
(spec/41_read.md R139, R141). -/
theorem readEnds_ready : ∃ ws t, ws.length = m ∧
    (∀ ws' rest', ws'.length = m → s.env.drAnswers = ws' ++ rest' → ws' = ws) ∧
    ReadEnds n wait
      (readOpening n wait (crBefore s.env) ++ (readyPasses s.cfg.byteOrder 0 ws ++ tail) ++
        readClosing (crBefore s.env) ⟨readStatus m wait, BitVec.ofNat 29 (4 * m), h⟩)
      ⟨readStatus m wait, BitVec.ofNat 29 (4 * m), h⟩ s t := by
  have hk1 : (envAfter s.env (readOpening n wait (crBefore s.env))).kind = .drawn := (envAfter_kind _ _).trans hk
  have hsr1 : answersFor (envAfter s.env (readOpening n wait (crBefore s.env))) .sr =
      List.replicate m 1 ++ (readsOf .sr tail ++ rest) := answersFor_envAfter_of_append hk hsr
  obtain ⟨ws, rfl, hready, hscript⟩ := exists_readyPasses hk1 s.cfg.byteOrder 0 m _ hsr1
  have hk2 := (envAfter_kind _ (readyPasses s.cfg.byteOrder 0 ws)).trans hk1
  have htail : Answers _ tail := answers_of_scripts hk2 fun r => by
    cases r with
    | cr => exact ⟨_, by rw [hcr]; rfl⟩
    | dr => exact ⟨_, by rw [hdr]; rfl⟩
    | sr => exact ⟨rest, answersFor_envAfter_of_append hk1 (hsr1.trans (by rw [readsOf_sr_readyPasses]))⟩
  have hloop : LoopTrace s.cfg.tPoll wait s.cfg.byteOrder n 0 (readyPasses s.cfg.byteOrder 0 ws ++ tail) ws.length h :=
    loopTrace_readyPasses 0 ws (by omega) (by rwa [Nat.zero_add])
  obtain ⟨t, ht⟩ := readEnds_long hp hprep hok hn hloop
    (answers_long.2 ⟨rfl, (answers_append _ _ _).2 ⟨hready, htail⟩⟩)
  exact ⟨ws, t, rfl, fun ws' rest' hlen hs => hscript ws' rest' hlen (answersFor_envAfter_of_append hk hs), ht⟩

/-- What such a READ returns, what it uses of the scripts, and what it leaves in the buffer (spec/41_read.md R141,
spec/20_memory.md R64, R73). -/
theorem callEnds_ready : ∃ t, CallEnds (7 + 3 * m + tail.length) s t ∧ t.env.srAnswers = rest ∧
    t.response = some ⟨readStatus m wait, BitVec.ofNat 29 (4 * m), h⟩ ∧ t.buf.len = n ∧
    (∀ ws restD, ws.length = m → s.env.drAnswers = ws ++ restD → t.env.drAnswers = restD ∧
      ∀ j k, k < 4 → ∀ w, ws[j]? = some w → readByte t.buf.bytes (4 * j + k) = some (byteAt s.cfg.byteOrder w k)) ∧
    (∀ a, 4 * m ≤ a → a < n → readByte t.buf.bytes a = readByte (presentedBytes s) a) := by
  obtain ⟨ws, t, rfl, hscript, ht⟩ := readEnds_ready hp hprep hok hk hn hm hl hcr hdr hsr
  have hleft {r : WinReg} {left : List Word} (hr : r ≠ .cr)
      (hs : answersFor s.env r = readsOf r (readyPasses s.cfg.byteOrder 0 ws ++ tail) ++ left) :
      answersFor t.env r = left := by
    rw [ht.env]
    exact answersFor_envAfter_of_append hk (by rwa [readsOf_long hr])
  have hbytes := ht.bytes
  rw [readsOf_long (by decide), readsOf_append, hdr, readsOf_dr_readyPasses, List.append_nil] at hbytes
  refine ⟨t, ?call, ?status, ht.response, ht.len, fun ws' restD hlen hs => ?words, fun a hlo hhi => ?above⟩
  case call =>
    convert ht.call using 1
    simp only [readOpening, readClosing, List.length_append, List.length_cons, List.length_nil, length_readyPasses]
    omega
  case status =>
    refine hleft (r := .sr) (by decide) (hsr.trans ?_)
    rw [readsOf_append, readsOf_sr_readyPasses, List.append_assoc]
  case words =>
    obtain rfl : ws' = ws := hscript ws' restD hlen hs
    refine ⟨hleft (r := .dr) (by decide) (hs.trans ?_), fun j k hk4 w hw => ?_⟩
    · rw [readsOf_append, readsOf_dr_readyPasses, hdr, List.append_nil]
    · rw [hbytes, ← Nat.zero_add j]
      exact readByte_storeWords _ _ 0 k j ws' w hk4 hw
  case above =>
    rw [hbytes, readByte_storeWords_outside _ _ _ _ _ (by omega)]
    exact readByte_filter _ _ _ hhi

end Ready

/-! ### The state from which a trace is run -/

/-- The prepared idle block whose host presents `READ n, wait`, in the trusted environment that answers with the words
that the trace reads (spec/10_state.md R47). -/
def scripted (budget : Nat) (o : ByteOrder) (n : Nat) (wait : Bool) (tr : List Event) : State where
  cfg := ⟨4, 0, budget, o⟩
  st := .idle
  x := Regs.reset
  hwerr := false
  prepared := true
  response := none
  buf := ⟨0, []⟩
  env := { Env.reset with
    clkPrepared := true
    crAnswers := readsOf .cr tr
    srAnswers := readsOf .sr tr
    drAnswers := readsOf .dr tr }
  pending := [⟨encode (.read n wait), []⟩]
  trace := []

section Scripted
variable {budget n : Nat} {o : ByteOrder} {wait : Bool} {tr : List Event}

theorem scripted_inv (hb : 1 ≤ budget) : MachineInv (scripted budget o n wait tr) where
  cfgOk := ⟨⟨rfl, show 0 + 0x0B < 2 ^ 4 by decide⟩, hb⟩
  bufWf := List.Pairwise.nil
  bufIn := nofun
  pendingWf := by simp [scripted]
  tmoLe := Nat.zero_le _
  preparedFits := nofun
  clkPreparedFits := rfl
  clkEnabledFits := rfl
  hwerrFits := nofun
  lenFits := nofun
  counters := nofun
  cntAligned := nofun
  room := nofun
  polling := nofun
  errorSeen := nofun
  dataSeen := nofun
  refSr := nofun
  refCr := nofun
  refSaved := nofun

theorem scripted_answers : Answers (scripted budget o n wait tr).env tr :=
  answers_of_scripts rfl fun r => by cases r <;> exact ⟨[], (List.append_nil _).symm⟩

end Scripted

end Sys2Proof.Safety
end

section
/-! PROOFS of the statements about whole READ calls (spec/41_read.md sections 4 to 6). -/

namespace Sys2Proof.Proofs

open Sys2Proof.Machine Sys2Proof.Safety

/-- Settles O43: out of contract both refuse; in contract the environment answers some trace of the grammar, and along
it the steps and the pseudocode come to the same state. -/
theorem readStepsMatchPseudocode : Obligations.ReadStepsMatchPseudocode := by
  intro s n wait hp hok
  cases hprep : s.prepared with
  | false =>
    refine ⟨1, Nat.le_refl _, by split <;> omega, ?_⟩
    rw [run_one, step_of_presents hp, exec_read_idle hp.1]
    simp [stepAcceptRead, readCall, hprep]
  | true =>
    obtain ⟨tr, r, t, htr, -, hends⟩ := exists_readEnds hp hprep hok
    obtain ⟨hpos, hrun, -⟩ := hends.call
    exact ⟨tr.length, hpos, htr.length_le hok.2, hrun.trans hends.code.symm⟩

/-- Settles O44, from the trace of the grammar that the environment answers: its length and its status reads are bounded
by the grammar. -/
theorem readCallHasTraceOfGrammar : Obligations.ReadCallHasTraceOfGrammar := by
  intro s n wait hp hprep hok
  obtain ⟨tr, r, t, htr, -, hends⟩ := exists_readEnds hp hprep hok
  refine ⟨tr.length, t, tr, htr.length_le hok.2, hends.call, hends.trace, htr, ?_, fun hw => ?_⟩
  · exact htr.countSr_le fun _ _ hs => hs.length_le hok.2
  · subst hw
    simpa using htr.countSr_le (b := 1) fun _ _ hs => Nat.le_of_eq (hs.length_eq_one hok.2)

/-- Settles O59: on every path the trace ends by writing back to CR the word read from it. -/
theorem readRestoresReferenceControl : Obligations.ReadRestoresReferenceControl := by
  intro s n wait hp hprep hok hk
  obtain ⟨tr, r, t, htr, ha, hends⟩ := exists_readEnds hp hprep hok
  refine ⟨tr.length, t, hends.call, ?_⟩
  rw [hends.env]
  exact readTrace_win_cr hk htr ha

/-- Settles O28: the short call is the Accept and the response, and the Accept takes the host's buffer as it is. -/
theorem shortReadTouchesNothing : Obligations.ShortReadTouchesNothing := by
  intro s n wait hp hprep hn
  have hends := readEnds_short hp hprep hn
  have hstatus : readStatus 0 wait = if wait then .noDataTimeout else .ok := by simp [readStatus]
  rw [hstatus] at hends
  refine ⟨_, hends.call, hends.env, hends.response, hends.trace, fun a ha => ?_⟩
  rw [hends.bytes]
  exact readByte_filter _ _ _ ha

/-- Settles O45: a trusted environment whose scripts are the words that the trace reads answers it, so it is the trace
of the call. -/
theorem everyTraceOfGrammarIsARead : Obligations.EveryTraceOfGrammarIsARead := by
  intro budget o n wait tr hb hn htr
  have hp : Presents (scripted budget o n wait tr) (.read n wait) :=
    ⟨rfl, _, _, rfl, decodeEncodeRoundTrip (.read n wait) hn⟩
  have hinv : MachineInv (scripted budget o n wait tr) := scripted_inv hb
  obtain ⟨r, t, hends⟩ := readEnds_of_trace hp rfl hinv.cfgOk htr scripted_answers
  exact ⟨_, tr.length, t, rfl, rfl, rfl, hinv, hp, hends.call, hends.trace⟩

/-- Settles O46: `floor(n/4)` ready passes fill the buffer, and the loop has no more events. -/
theorem alwaysReadyReadFillsTheBuffer : Obligations.AlwaysReadyReadFillsTheBuffer := by
  intro s n wait ws restS restD hp hprep hok hk hn hlen hsr hdr
  obtain ⟨t, hcall, -, hresponse, hbuf, hwords, habove⟩ := callEnds_ready (tail := []) (h := false) hp hprep hok hk hn
    (Nat.le_refl _) (.full _ rfl) rfl rfl hsr
  have hstatus : readStatus (n / 4) wait = .ok := if_neg fun h => by omega
  rw [hstatus] at hresponse
  exact ⟨t, hcall, hresponse, hbuf, (hwords ws restD hlen hdr).2, habove⟩

/-- Settles O47: the first pass polls the whole budget as zero, and the call stops empty. -/
theorem neverReadyReadTimesOut : Obligations.NeverReadyReadTimesOut := by
  intro s n rest hp hprep hok hk hn hsr
  have hzeros : s.env.srAnswers =
      List.replicate 0 1 ++ (readsOf .sr (srRead 0 :: List.replicate s.cfg.tPoll (srRead 0)) ++ rest) := by
    rw [hsr, Nat.add_comm, List.replicate_succ]
    simp
  obtain ⟨t, hcall, hused, hresponse, -, -, habove⟩ := callEnds_ready (wait := true) hp hprep hok hk hn
    (Nat.zero_le _) (.stopEmpty 0 _ (by omega) (.exhausted rfl)) (by simp) (by simp) hzeros
  refine ⟨t, ?_, hresponse, hused, fun a ha => habove a (Nat.zero_le _) ha⟩
  rw [List.length_cons, List.length_replicate] at hcall
  rwa [show 8 + s.cfg.tPoll = 7 + 3 * 0 + (s.cfg.tPoll + 1) by omega]

/-- Settles O48: `m` ready passes, then the pass that sees the error. -/
theorem errorKeepsTheWordsCaptured : Obligations.ErrorKeepsTheWordsCaptured := by
  intro s n m wait e rest hp hprep hok hk hm he hsr
  have hz : e ≠ 0 := by
    rintro rfl
    exact he BitVec.zero_and
  obtain ⟨t, hcall, hrest⟩ := callEnds_ready hp hprep hok hk (by omega) (Nat.le_of_lt hm)
    (.stopError m e _ hm (.ready e hz) he) rfl rfl hsr
  refine ⟨t, ?_, hrest⟩
  rw [show 9 + 3 * m = 7 + 3 * m + 2 by omega]
  exact hcall

/-- Settles O49: `m` ready passes, then the pass that stops at zero without a poll. -/
theorem nonBlockingReadStopsEmpty : Obligations.NonBlockingReadStopsEmpty := by
  intro s n m rest hp hprep hok hk hm hsr
  obtain ⟨t, hcall, hused, hresponse, hbuffer⟩ := callEnds_ready hp hprep hok hk (by omega) (Nat.le_of_lt hm)
    (.stopEmpty m _ hm (.empty rfl)) rfl rfl hsr
  have hstatus : readStatus m false = .ok := if_neg fun h => Bool.false_ne_true h.2
  rw [hstatus] at hresponse
  refine ⟨t, ?_, hused, hresponse, hbuffer⟩
  rw [show 8 + 3 * m = 7 + 3 * m + 1 by omega]
  exact hcall

end Sys2Proof.Proofs
end

section
/-! SUPPORT. CLEANUP step by step: what `exec` answers in each of its FSM states, what each step leaves unchanged, and its
call as a run of steps beside its pseudocode (spec/42_cleanup.md). -/

namespace Sys2Proof.Machine

/-! ### The step of each FSM state -/

section Steps
variable {s : State}

theorem exec_cleanup_idle_prepared (hs : s.st = .idle) (hprep : s.prepared = true) :
    exec .cleanup s = .next (goto .cUnprep (accept .cleanup s)) := by
  rw [exec_cleanup_idle hs, stepAcceptCleanup, if_pos hprep]

theorem exec_cleanup_cUnprep (hs : s.st = .cUnprep) :
    exec .cleanup s = .next (goto .cRet { clkUnprepare s with prepared := false }) := by
  simp only [exec, execCleanup, hs, stepCUnprep]

theorem exec_cleanup_cRet (hs : s.st = .cRet) : exec .cleanup s = .next (ret ⟨.ok, 0, false⟩ s) := by
  simp only [exec, execCleanup, hs, stepCRet]

/-- In a working state of CLEANUP `step` is the meaning of CLEANUP (spec/10_state.md R20). -/
theorem step_eq_exec_cleanup (h : family s.st = some .cleanup) : step s = exec .cleanup s := step_of_cleanup h

theorem cleanupCall_of_prepared (hprep : s.prepared = true) :
    cleanupCall s = .next (ret ⟨.ok, 0, false⟩ { clkUnprepare (accept .cleanup s) with prepared := false }) := by
  rw [cleanupCall, if_pos hprep]

end Steps

/-! ### What each step leaves unchanged -/

section Frame
variable {s t : State} (h : CleanupNext s t)
include h

/-- Only Accept clears `hwerr` and takes the command from the host (spec/30_encoding.md R93). -/
theorem CleanupNext.host_eq (hs : s.st ≠ .idle) : t.hwerr = s.hwerr ∧ t.pending = s.pending := by
  cases h with
  | accept hst => exact absurd hst hs
  | _ => exact ⟨rfl, rfl⟩

/-- Only `S_C_UNPREP` acts on `prepared` and on the clock (spec/42_cleanup.md R161). -/
theorem CleanupNext.prepared_env_eq (hs : s.st ≠ .cUnprep) : t.prepared = s.prepared ∧ t.env = s.env := by
  cases h with
  | unprep hst => exact absurd hst hs
  | _ => exact ⟨rfl, rfl⟩

/-- Of the environment `S_C_UNPREP` changes the clock's preparation alone (spec/42_cleanup.md R161). -/
theorem CleanupNext.env_of_cUnprep (hs : s.st = .cUnprep) : t.env = { s.env with clkPrepared := false } := by
  cases h with
  | unprep => rfl
  | accept hst | ret hst => simp [hs] at hst

/-- Only `S_C_RET` delivers a response (spec/42_cleanup.md R162). -/
theorem CleanupNext.response_eq (hs : s.st ≠ .cRet) : t.response = s.response := by
  cases h with
  | ret hst => exact absurd hst hs
  | _ => rfl

end Frame

end Sys2Proof.Machine

namespace Sys2Proof.Safety

open Sys2Proof.Machine

/-- The call as a run of steps: two working states, then the step that returns, in the state of the pseudocode
(spec/42_cleanup.md R160 to R163). -/
theorem callEnds_cleanup {s : State} (hp : Presents s .cleanup) (hprep : s.prepared = true) :
    CallEnds 3 s (ret ⟨.ok, 0, false⟩ { clkUnprepare (accept .cleanup s) with prepared := false }) := by
  have haccept : step s = .next (goto .cUnprep (accept .cleanup s)) :=
    (step_of_presents hp).trans (exec_cleanup_idle_prepared hp.1 hprep)
  have hrelease := (step_eq_exec_cleanup rfl).trans (exec_cleanup_cUnprep (s := goto .cUnprep (accept .cleanup s)) rfl)
  have hbusy := (busy_one haccept nofun).trans (busy_one hrelease nofun)
  exact hbusy.callEnds ((step_eq_exec_cleanup rfl).trans (exec_cleanup_cRet rfl)) rfl

end Sys2Proof.Safety
end

section
/-! PROOFS of the statements about CLEANUP: its steps, what they leave unchanged, and its call (spec/42_cleanup.md). -/

namespace Sys2Proof.Proofs

open Sys2Proof.Machine Sys2Proof.Safety

/-- Settles O53, by the steps of CLEANUP: none touches the parameters, the working registers or the buffer, and each other
field is changed by one step alone. -/
theorem cleanupFrame : Obligations.CleanupFrame := by
  intro s t h
  have hn : CleanupNext s t := execCleanup_next h
  have hbuf : t.buf = s.buf := hn.buf_eq
  exact ⟨hn.cfg_eq, hn.x_eq, by rw [hbuf], fun a => by rw [hbuf], hn.host_eq, hn.prepared_env_eq, hn.env_of_cUnprep,
    hn.response_eq⟩

/-- Settles O54: no step of the call asks the environment, so its run ends in the one state of the pseudocode. -/
theorem cleanupCallTrace : Obligations.CleanupCallTrace := by
  intro s hp hprep
  exact ⟨_, callEnds_cleanup hp hprep, cleanupCall_of_prepared hprep, rfl, by simp⟩

/-- Settles O51, by the step of `S_C_UNPREP`. -/
theorem cleanupReleasesTheClock : Obligations.CleanupReleasesTheClock :=
  fun _ hs => exec_cleanup_cUnprep hs

/-- Settles O52; the invariant says that `prepared` is clear in `S_C_RET`. -/
theorem cleanupReturnsOk : Obligations.CleanupReturnsOk :=
  fun _ hs => ⟨exec_cleanup_cRet hs, by decide, fun hinv => hinv.preparedFits false (by rw [hs]; rfl)⟩

end Sys2Proof.Proofs
end
